-- ==== Sys2Proof/Word.lean ====
section
/-! DEFINITION. The widths of the machine: a 16-bit word and an 8-bit byte (00_scope.md rule R6). -/

namespace Sys2Proof

/-- The 16-bit word of the machine: a register, an address, an instruction word or an extension word
(00_scope.md rule R6, "Word size: 16 bits"). Its arithmetic is modulo 2^16 (rule R9). -/
abbrev Word := BitVec 16

/-- The addressable unit: one 8-bit byte per address (00_scope.md rule R6). -/
abbrev Byte := BitVec 8

end Sys2Proof
end

