-- ==== Sys2Proof/Config.lean ====
section
/-! DEFINITION. What an implementation fixes and what the spec leaves open: the defaults of the spec's named parameters (00_scope.md rule R7), the byte that unlisted memory reads as, and the two parameters that stay open in the machine, LOAD_UPDATES_ZN and the oracle that answers reads of the I/O window. -/

namespace Sys2Proof

/-- One transaction with a device register of the I/O window (20_memory.md rules R66, R67, R68). -/
inductive IoEvent where
  /-- `Read(a, value)`: the register at address `a` was read and answered `value` (rule R66). -/
  | read (a value : Word)
  /-- `Write(a, v)`: the word `v` was written to the register at address `a` (rule R67). -/
  | write (a v : Word)
  deriving DecidableEq, Repr

namespace Config

/-- Default of the parameter `RESET_PC` (00_scope.md rule R7, 70_reset_and_hazards.md rule R231). -/
def resetPc : Word := 0x8000

/-- Default of the parameter `RESET_SP` (00_scope.md rule R7, 70_reset_and_hazards.md rule R232). -/
def resetSp : Word := 0x7FFF

/-- The parameter `LOAD_UPDATES_ZN` (00_scope.md rule R7, 41_data_movement.md rule R141), an argument of the machine
fixed for every run and no part of its state (10_state.md rule R41). It has no body, so a claim about the machine holds
for either implementation (92_eei_decisions.md D12); log entry 5. -/
opaque loadUpdatesZN : Bool

/-- The default of `LOAD_UPDATES_ZN` (00_scope.md rule R7). -/
def loadUpdatesZNDefault : Bool := false

/-- What a byte of plain memory that no entry of the memory lists reads as.
DESIGN CHOICE, unsafe: the spec leaves such a byte open (70_reset_and_hazards.md rule R236); log entry 2. -/
def unlistedByte : Byte := 0

/-- The parameter `IoRead` of 00_scope.md rule R7, an oracle and no part of the state (10_state.md rule R41): the value the environment answers to a read of the window
register `a` after the I/O history `trace` (20_memory.md rule R66, "chosen by the environment, under no law
known to the model"). A FREE VALUE: it has no body, so a claim about it holds whatever it is; log entry 4. -/
opaque ioRead (trace : List IoEvent) (a : Word) : Word

end Config

end Sys2Proof
end

