-- ==== Sys2Proof/Syntax.lean ====
section
/-! DEFINITION. The instruction set as data: the fields of a base word (30_encoding.md rule R91), the operand forms of the addressing modes (rules R95, R99, R100) and one constructor of Instr per row of spec/opcode_table.json (rule R103). -/

namespace Sys2Proof

/-- The five fields of a base instruction word, as numbers (30_encoding.md rule R91). -/
structure Fields where
  /-- OPCODE, bits 15:11. -/
  opcode : BitVec 5
  /-- MODE, bits 10:8. -/
  mode : BitVec 3
  /-- RD, bits 7:5. -/
  rd : BitVec 3
  /-- RS, bits 4:2. -/
  rs : BitVec 3
  /-- UNUSED, bits 1:0. -/
  unused : BitVec 2
  deriving DecidableEq, Repr

/-- A general register (10_state.md rules R20, R21). -/
inductive Reg where
  | r0 | r1 | r2 | r3
  deriving DecidableEq, Repr

/-- A memory operand: the four addressing modes that have an effective address (30_encoding.md rules R95, R99). -/
inductive MemOperand where
  /-- MODE 010, DIR: the extension word is the address. -/
  | dir (address : Word)
  /-- MODE 011, IND: the address is in a register. -/
  | ind (base : Reg)
  /-- MODE 100, OFF: a register plus the signed extension word. -/
  | off (base : Reg) (offset : Word)
  /-- MODE 101, REL: the address of the next instruction plus the signed extension word. -/
  | rel (offset : Word)
  deriving DecidableEq, Repr

/-- A value operand: all six addressing modes (30_encoding.md rules R95, R100; class V of rule R102). -/
inductive Operand where
  /-- MODE 000, REG. -/
  | reg (r : Reg)
  /-- MODE 001, IMM. -/
  | imm (value : Word)
  /-- MODES 010 to 101: the word at an effective address. -/
  | mem (m : MemOperand)
  deriving DecidableEq, Repr

/-- A port operand: the two modes that IN and OUT admit (30_encoding.md rule R102, 45_io.md rule R190). -/
inductive PortOperand where
  /-- MODE 000: the port number is in a register. -/
  | reg (r : Reg)
  /-- MODE 001: the port number is the extension word. -/
  | imm (port : Word)
  deriving DecidableEq, Repr

/-- The 25 instructions (30_encoding.md rule R103), each with the operands its class uses (rule R102).
A field that the class ignores is no part of the instruction: "Two words that differ only in ignored fields are
the same instruction" (rule R107). The constructors `inPort` and `outPort` are IN and OUT. -/
inductive Instr where
  | nop
  | halt
  | mov (rd : Reg) (src : Operand)
  | load (rd : Reg) (src : MemOperand)
  | store (dst : MemOperand) (rs : Reg)
  | add (rd : Reg) (src : Operand)
  | sub (rd : Reg) (src : Operand)
  | and (rd : Reg) (src : Operand)
  | or (rd : Reg) (src : Operand)
  | xor (rd : Reg) (src : Operand)
  | cmp (rd : Reg) (src : Operand)
  | shl (rd : Reg)
  | shr (rd : Reg)
  | jmp (target : MemOperand)
  | jz (target : MemOperand)
  | jnz (target : MemOperand)
  | jc (target : MemOperand)
  | jnc (target : MemOperand)
  | jn (target : MemOperand)
  | call (target : MemOperand)
  | ret
  | push (rs : Reg)
  | pop (rd : Reg)
  | inPort (rd : Reg) (port : PortOperand)
  | outPort (port : PortOperand) (rs : Reg)
  deriving DecidableEq, Repr

end Sys2Proof
end

