-- ==== Sys2Proof/Machine/State.lean ====
section
/-! DEFINITION. The state of the machine (10_state.md rule R40), the reasons a step stops, and the state after reset (70_reset_and_hazards.md rules R230 to R237). -/

namespace Sys2Proof.Machine

/-- The eight faults of 60_exceptions.md rule R201, each with the value it records. Every one of them is SAFE: it
stands for a behaviour the source leaves undefined, and the model does not go on (rule R207). -/
inductive FaultReason where
  /-- `FAULT_FETCH_REGION`: raised by the fetch of a base or extension word at `a` that has a byte outside plain
  memory (20_memory.md rule R60). Safe. -/
  | fetchRegion (a : Word)
  /-- `FAULT_UNUSED_BITS`: raised by the decode of a base word `w` with bits 1:0 not 00 (30_encoding.md rule R111). Safe. -/
  | unusedBits (w : Word)
  /-- `FAULT_RESERVED_OPCODE`: raised by the decode of a base word `w` with opcode 25 to 31 (rule R108). Safe. -/
  | reservedOpcode (w : Word)
  /-- `FAULT_RESERVED_MODE`: raised by the decode of a base word `w` with MODE 110 or 111 (rule R109). Safe. -/
  | reservedMode (w : Word)
  /-- `FAULT_UNSUPPORTED_MODE`: raised by the decode of a base word `w` whose mode is not admitted (rule R109). Safe. -/
  | unsupportedMode (w : Word)
  /-- `FAULT_RESERVED_REGISTER`: raised by the decode of a base word `w` with a used register field of 4 to 7
  (rule R110). Safe. -/
  | reservedRegister (w : Word)
  /-- `FAULT_IO_PORT_RANGE`: raised by IN and OUT with a port number `p` above 0x00FF (45_io.md rules R191, R192). Safe. -/
  | ioPortRange (p : Word)
  /-- `FAULT_DATA_REGION`: raised by a data access at `a` that is neither wholly in plain memory nor addressed to
  the I/O window (20_memory.md rules R61, R62). Safe. -/
  | dataRegion (a : Word)
  deriving DecidableEq, Repr

/-- Why a step answers no next state. -/
inductive Fault where
  /-- This step raises the fault `r` (60_exceptions.md rules R200, R203); raised by the fetch, the decode, IN, OUT
  and every data access. Safe. -/
  | raised (r : FaultReason)
  /-- The state already holds a recorded fault: "a state with fault ≠ none has no step" (rule R200); raised by
  `step` alone. Safe. -/
  | stuckFaulted (r : FaultReason)
  /-- The state is halted: "a state with halted = true has no step" (40_nop_halt.md rule R131), the normal end of a
  run (60_exceptions.md rule R222); raised by `step` alone. Safe. -/
  | stuckHalted
  deriving DecidableEq, Repr

/-- Why the model has no answer. -/
inductive Refusal where
  /-- Answered only by an arm of `exec` whose instruction has no meaning yet; no arm does. Safe. -/
  | notModelled (mnemonic : String)
  deriving DecidableEq, Repr

/-- The four general registers (10_state.md rule R20). -/
structure Regs where
  r0 : Word
  r1 : Word
  r2 : Word
  r3 : Word
  deriving DecidableEq, Repr

/-- The FLAGS register: four flags; its bits 7:4 are always 0 and are not stored (10_state.md rules R27, R28,
"A model may represent FLAGS as four Booleans"). -/
structure Flags where
  /-- Bit 0: Z, Zero. -/
  z : Bool
  /-- Bit 1: N, Negative. -/
  n : Bool
  /-- Bit 2: C, Carry. -/
  c : Bool
  /-- Bit 3: V, Overflow. -/
  v : Bool
  deriving DecidableEq, Repr

/-- Plain memory, RAM and the program area (20_memory.md rule R54), as its listed bytes in rising order of address;
every other byte of 0x0000 to 0xEFFF reads as `Config.unlistedByte`. -/
abbrev Memory := List Host.Cell

/-- The whole state: the components of 10_state.md rule R40 and nothing else (rule R41). -/
structure State where
  /-- R0 to R3 (rule R20). -/
  regs : Regs
  /-- PC (rule R23). -/
  pc : Word
  /-- SP (rule R31). -/
  sp : Word
  /-- FLAGS (rule R27). -/
  flags : Flags
  /-- `mem[0x0000..0xEFFF]` (rule R37). -/
  mem : Memory
  /-- `halted` (rule R39). -/
  halted : Bool
  /-- `fault` (rule R39). -/
  fault : Option FaultReason
  /-- `io_trace`, oldest event first (rule R39, 20_memory.md rule R68). -/
  ioTrace : List IoEvent
  deriving DecidableEq, Repr

/-- Everything that is chosen for the state before the first step: the parameters RESET_PC, RESET_SP and MEM_INIT of
00_scope.md rule R7 and the values 70_reset_and_hazards.md rules R233, R234 and R236 leave unspecified. The other two
parameters of rule R7, which no state holds (rule R41), are constants of Config. -/
structure ResetChoice where
  /-- `RESET_PC` (rule R231). -/
  resetPc : Word
  /-- `RESET_SP` (rule R232). -/
  resetSp : Word
  /-- `MEM_INIT`, with the program already loaded (rule R236). -/
  memInit : Memory
  /-- R0 to R3 after reset, unspecified (rule R233). -/
  regs : Regs
  /-- Z, N, C and V after reset, unspecified (rule R234). -/
  flags : Flags
  deriving DecidableEq, Repr

/-- The reset state for a choice of everything the spec leaves open (10_state.md rule R40, 70_reset_and_hazards.md
rules R231 to R236). A claim over every choice holds for every unspecified value. -/
def State.resetWith (p : ResetChoice) : State where
  regs := p.regs
  pc := p.resetPc
  sp := p.resetSp
  flags := p.flags
  mem := p.memInit
  halted := false
  fault := none
  ioTrace := []

/-- The defaults of the parameters (00_scope.md rule R7), memory with nothing listed, and for what the spec leaves
unspecified the values that log entries 1 and 2 name: zero registers and clear flags.
DESIGN CHOICE, unsafe. -/
def ResetChoice.default : ResetChoice where
  resetPc := Config.resetPc
  resetSp := Config.resetSp
  memInit := []
  regs := { r0 := 0, r1 := 0, r2 := 0, r3 := 0 }
  flags := { z := false, n := false, c := false, v := false }

/-- The machine right after reset, with nothing loaded (70_reset_and_hazards.md rule R230). -/
def State.reset : State := State.resetWith ResetChoice.default

end Sys2Proof.Machine
end

