-- ==== Sys2Proof/Machine/Flags.lean ====
section
/-! DEFINITION. Every flag computation (42_alu.md rules R151 to R153, 41_data_movement.md rule R141). -/

namespace Sys2Proof.Machine

/-- Z: the 16-bit result is 0x0000 (42_alu.md rule R151). -/
def zeroFlag (r : Word) : Bool := r == 0

/-- N: bit 15 of the result (42_alu.md rule R151). -/
def negativeFlag (r : Word) : Bool := r.getLsbD 15

/-- C of ADD: the sum as an integer exceeds 65535 (42_alu.md rule R152). -/
def addCarry (a b : Word) : Bool := decide (a.toNat + b.toNat > 65535)

/-- C of SUB and CMP: no borrow is required, a >= b unsigned (42_alu.md rule R152). -/
def subCarry (a b : Word) : Bool := decide (a.toNat ≥ b.toNat)

/-- V of ADD: operands of the same sign give a result of a different sign (42_alu.md rule R153). -/
def addOverflow (a b : Word) : Bool :=
  (a.getLsbD 15 == b.getLsbD 15) && ((a + b).getLsbD 15 != a.getLsbD 15)

/-- V of SUB and CMP: operands of different signs, and the result's sign differs from the minuend's
(42_alu.md rule R153). -/
def subOverflow (a b : Word) : Bool :=
  (a.getLsbD 15 != b.getLsbD 15) && ((a - b).getLsbD 15 != a.getLsbD 15)

/-- The flags after ADD (42_alu.md rule R154). -/
def addFlags (a b : Word) : Flags where
  z := zeroFlag (a + b)
  n := negativeFlag (a + b)
  c := addCarry a b
  v := addOverflow a b

/-- The flags after SUB and CMP (42_alu.md rules R155, R159). -/
def subFlags (a b : Word) : Flags where
  z := zeroFlag (a - b)
  n := negativeFlag (a - b)
  c := subCarry a b
  v := subOverflow a b

/-- The flags after AND, OR and XOR: C unchanged, V cleared (42_alu.md rules R152, R153, R156 to R158). -/
def logicFlags (r : Word) (old : Flags) : Flags where
  z := zeroFlag r
  n := negativeFlag r
  c := old.c
  v := false

/-- The result of SHL: one bit left, a zero enters bit 0 (42_alu.md rule R160). -/
def shlResult (a : Word) : Word := a <<< 1

/-- The result of SHR: one bit right, a zero enters bit 15 (42_alu.md rule R161). -/
def shrResult (a : Word) : Word := a >>> 1

/-- The flags after SHL: C is the bit shifted out of the MSB, V cleared (42_alu.md rule R160). -/
def shlFlags (a : Word) : Flags where
  z := zeroFlag (shlResult a)
  n := negativeFlag (shlResult a)
  c := a.getLsbD 15
  v := false

/-- The flags after SHR: C is the bit shifted out of the LSB, V cleared (42_alu.md rule R161). -/
def shrFlags (a : Word) : Flags where
  z := zeroFlag (shrResult a)
  n := negativeFlag (shrResult a)
  c := a.getLsbD 0
  v := false

/-- The flags after LOAD: Z and N written only where `LOAD_UPDATES_ZN` is true, C and V never
(41_data_movement.md rule R141). -/
def loadFlags (updatesZN : Bool) (v : Word) (old : Flags) : Flags where
  z := if updatesZN then zeroFlag v else old.z
  n := if updatesZN then negativeFlag v else old.n
  c := old.c
  v := old.v

end Sys2Proof.Machine
end

