-- ==== Sys2Proof/WellFormed.lean ====
section
/-! DEFINITION. Which base words are instructions: the class table of 30_encoding.md rule R102 and the checks of rule R104 steps 3 to 7, written over the raw fields. Instr itself cannot hold an unadmitted mode or a register number above 3, so the checks are about fields; the decoder (Decode.lean) is written without this file, and a statement compares the two. -/

namespace Sys2Proof

/-- The ten instruction classes (30_encoding.md rule R102). -/
inductive OpClass where
  /-- no operand: NOP, HALT, RET -/
  | none
  /-- value operand: MOV, ADD, SUB, AND, OR, XOR, CMP -/
  | value
  /-- address operand, read: LOAD -/
  | addrRead
  /-- address operand, write: STORE -/
  | addrWrite
  /-- shift: SHL, SHR -/
  | shift
  /-- jump target: JMP, JZ, JNZ, JC, JNC, JN, CALL -/
  | target
  /-- push: PUSH -/
  | push
  /-- pop: POP -/
  | pop
  /-- port in: IN -/
  | portIn
  /-- port out: OUT -/
  | portOut
  deriving DecidableEq, Repr

/-- The class of an opcode; none for the reserved opcodes 25 to 31 (30_encoding.md rules R103, R108). -/
def opClass (opcode : BitVec 5) : Option OpClass :=
  match opcode.toNat with
  | 0 | 1 | 20 => some .none
  | 2 | 5 | 6 | 7 | 8 | 9 | 10 => some .value
  | 3 => some .addrRead
  | 4 => some .addrWrite
  | 11 | 12 => some .shift
  | 13 | 14 | 15 | 16 | 17 | 18 | 19 => some .target
  | 21 => some .push
  | 22 => some .pop
  | 23 => some .portIn
  | 24 => some .portOut
  | _ => Option.none

namespace OpClass

/-- "Uses MODE" of 30_encoding.md rule R102. -/
def usesMode : OpClass → Bool
  | .value | .addrRead | .addrWrite | .target | .portIn | .portOut => true
  | .none | .shift | .push | .pop => false

/-- "Admitted modes" of 30_encoding.md rule R102; a class that ignores MODE admits every value (rule R106). -/
def admits (c : OpClass) (mode : BitVec 3) : Bool :=
  match c with
  | .none | .shift | .push | .pop => true
  | .value => decide (mode.toNat ≤ 5)
  | .addrRead | .addrWrite | .target => decide (2 ≤ mode.toNat ∧ mode.toNat ≤ 5)
  | .portIn | .portOut => decide (mode.toNat ≤ 1)

/-- Column RD of 30_encoding.md rule R102. -/
def usesRd (c : OpClass) (mode : BitVec 3) : Bool :=
  match c with
  | .value | .addrRead | .shift | .pop | .portIn => true
  | .addrWrite => mode == 3 || mode == 4
  | .portOut => mode == 0
  | .none | .target | .push => false

/-- Column RS of 30_encoding.md rule R102. -/
def usesRs (c : OpClass) (mode : BitVec 3) : Bool :=
  match c with
  | .value => mode == 0 || mode == 3 || mode == 4
  | .addrRead | .target => mode == 3 || mode == 4
  | .addrWrite | .push | .portOut => true
  | .portIn => mode == 0
  | .none | .shift | .pop => false

end OpClass

namespace Fields

/-- Check of step 3 of 30_encoding.md rule R104: bits 1:0 are 00 (rule R111). -/
def unusedClear (f : Fields) : Bool := f.unused == 0

/-- Check of step 4: the opcode is one of 0 to 24 (rule R108). -/
def opcodeAssigned (f : Fields) : Bool := (opClass f.opcode).isSome

/-- First check of step 6: MODE is not 110 or 111 on an instruction that uses MODE (rule R109). -/
def modeNotReserved (f : Fields) : Bool :=
  match opClass f.opcode with
  | some c => !c.usesMode || decide (f.mode.toNat ≤ 5)
  | none => true

/-- Second check of step 6: the mode is admitted for the instruction (rules R102, R109). -/
def modeAdmitted (f : Fields) : Bool :=
  match opClass f.opcode with
  | some c => c.admits f.mode
  | none => true

/-- Check of step 7 on RD: a used RD names one of R0 to R3 (rule R110). -/
def rdNamesRegister (f : Fields) : Bool :=
  match opClass f.opcode with
  | some c => !c.usesRd f.mode || decide (f.rd.toNat ≤ 3)
  | none => true

/-- Check of step 7 on RS: a used RS names one of R0 to R3 (rule R110). -/
def rsNamesRegister (f : Fields) : Bool :=
  match opClass f.opcode with
  | some c => !c.usesRs f.mode || decide (f.rs.toNat ≤ 3)
  | none => true

/-- The base word is one of the 25 instructions: it passes every check of 30_encoding.md rule R104
steps 3 to 7 (rule R112: "Every base word either selects one of the 25 instructions or faults"). -/
def wellFormed (f : Fields) : Bool :=
  f.unusedClear && f.opcodeAssigned && f.modeNotReserved && f.modeAdmitted && f.rdNamesRegister &&
    f.rsNamesRegister

/-- An extension word follows the base word (30_encoding.md rule R93). -/
def hasExtension (f : Fields) : Bool :=
  match opClass f.opcode with
  | some c => c.usesMode && (f.mode == 1 || f.mode == 2 || f.mode == 4 || f.mode == 5)
  | none => false

end Fields

end Sys2Proof
end

