-- ==== Sys2Proof/Decode.lean ====
section
/-! DEFINITION. The decoder and, after it, the encoder (30_encoding.md rules R90 to R112). The decoder is total on any bytes and rejects by name; the encoder writes the canonical words of an instruction (rule R107). -/

namespace Sys2Proof

/-! ## Byte order and bit fields -/

/-- The word whose byte at the lower address is `lo` (20_memory.md rules R50, R51: little-endian), the value
`b1 × 256 + b0` of 00_scope.md rule R10. -/
def wordOfBytes (lo hi : Byte) : Word := BitVec.ofNat 16 (hi.toNat * 256 + lo.toNat)

/-- Bits 7:0 of a word: the byte at the lower address. -/
def lowByte (w : Word) : Byte := w.extractLsb' 0 8

/-- Bits 15:8 of a word: the byte at the higher address. -/
def highByte (w : Word) : Byte := w.extractLsb' 8 8

/-- The fields of a base word (30_encoding.md rule R91: "OPCODE = IR[15:11]", "MODE = IR[10:8]",
"RD = IR[7:5]", "RS = IR[4:2]"). -/
def fieldsOf (w : Word) : Fields where
  opcode := w.extractLsb' 11 5
  mode := w.extractLsb' 8 3
  rd := w.extractLsb' 5 3
  rs := w.extractLsb' 2 3
  unused := w.extractLsb' 0 2

/-- The base word with the given fields, "word = OPCODE × 2048 + MODE × 256 + RD × 32 + RS × 4 + UNUSED"
(30_encoding.md rule R91). -/
def wordOfFields (f : Fields) : Word :=
  BitVec.ofNat 16
    (f.opcode.toNat * 2048 + f.mode.toNat * 256 + f.rd.toNat * 32 + f.rs.toNat * 4 + f.unused.toNat)

/-! ## Decoding -/

/-- Why a base word is no instruction (30_encoding.md rule R104 steps 3 to 7). -/
inductive DecodeReason where
  /-- Step 3, rule R111: bits 1:0 are not 00. -/
  | unusedBits
  /-- Step 4, rule R108: the opcode is 25 to 31. -/
  | reservedOpcode
  /-- Step 6, rule R109: MODE is 110 or 111. -/
  | reservedMode
  /-- Step 6, rule R109: the mode is not admitted for the instruction. -/
  | unsupportedMode
  /-- Step 7, rule R110: a used register field holds 4 to 7. -/
  | reservedRegister
  deriving DecidableEq, Repr

/-- What a base word that passes the checks stands for (30_encoding.md rules R90, R94). -/
inductive Decoded where
  /-- A 2-byte instruction. -/
  | short (i : Instr)
  /-- A 4-byte instruction, complete once its extension word is known. -/
  | long (complete : Word → Instr)

/-- The register a used 3-bit field names (10_state.md rule R21, 30_encoding.md rule R110). -/
def regOfField (b : BitVec 3) : Except DecodeReason Reg :=
  match b.toNat with
  | 0 => .ok .r0
  | 1 => .ok .r1
  | 2 => .ok .r2
  | 3 => .ok .r3
  | _ => .error .reservedRegister

/-- A memory operand before its extension word is known. -/
inductive MemShape where
  | dir
  | ind (base : Reg)
  | off (base : Reg)
  | rel
  deriving DecidableEq, Repr

/-- A value operand before its extension word is known. -/
inductive ValueShape where
  | reg (r : Reg)
  | imm
  | mem (m : MemShape)
  deriving DecidableEq, Repr

/-- A port operand before its extension word is known. -/
inductive PortShape where
  | reg (r : Reg)
  | imm
  deriving DecidableEq, Repr

/-- The operand of a mode in 010 to 101 with its base register field (30_encoding.md rules R95, R101); the modes
without an effective address are unsupported, 110 and 111 are reserved (rule R109). -/
def memShape (mode base : BitVec 3) : Except DecodeReason MemShape :=
  match mode.toNat with
  | 0 | 1 => .error .unsupportedMode
  | 2 => .ok .dir
  | 3 => do let b ← regOfField base; return .ind b
  | 4 => do let b ← regOfField base; return .off b
  | 5 => .ok .rel
  | _ => .error .reservedMode

/-- The operand of a mode in 000 to 101 with its register field RS (30_encoding.md rules R95, R100). -/
def valueShape (mode rs : BitVec 3) : Except DecodeReason ValueShape :=
  match mode.toNat with
  | 0 => do let r ← regOfField rs; return .reg r
  | 1 => .ok .imm
  | _ => do let m ← memShape mode rs; return .mem m

/-- The port of IN and OUT, in modes 000 and 001 (30_encoding.md rules R102, R109; 45_io.md rule R190). -/
def portShape (mode reg : BitVec 3) : Except DecodeReason PortShape :=
  match mode.toNat with
  | 0 => do let r ← regOfField reg; return .reg r
  | 1 => .ok .imm
  | 2 | 3 | 4 | 5 => .error .unsupportedMode
  | _ => .error .reservedMode

/-- The instruction a memory operand completes; modes 010, 100 and 101 have an extension word (rule R93). -/
def MemShape.finish (mk : MemOperand → Instr) : MemShape → Decoded
  | .dir => .long fun ext => mk (.dir ext)
  | .ind b => .short (mk (.ind b))
  | .off b => .long fun ext => mk (.off b ext)
  | .rel => .long fun ext => mk (.rel ext)

/-- The instruction a value operand completes; mode 001 has an extension word (rules R93, R97). -/
def ValueShape.finish (mk : Operand → Instr) : ValueShape → Decoded
  | .reg r => .short (mk (.reg r))
  | .imm => .long fun ext => mk (.imm ext)
  | .mem m => m.finish fun a => mk (.mem a)

/-- The instruction a port operand completes; mode 001 has an extension word (rule R93). -/
def PortShape.finish (mk : PortOperand → Instr) : PortShape → Decoded
  | .reg r => .short (mk (.reg r))
  | .imm => .long fun ext => mk (.imm ext)

/-- Class V (30_encoding.md rule R102): a value operand with RS, RD used. -/
def decodeValue (mk : Reg → Operand → Instr) (f : Fields) : Except DecodeReason Decoded := do
  let src ← valueShape f.mode f.rs
  let rd ← regOfField f.rd
  return src.finish (mk rd)

/-- Class A: a memory operand with base RS, RD used. -/
def decodeAddrRead (mk : Reg → MemOperand → Instr) (f : Fields) : Except DecodeReason Decoded := do
  let src ← memShape f.mode f.rs
  let rd ← regOfField f.rd
  return src.finish (mk rd)

/-- Class W: a memory operand with base RD (rule R101), RS used. -/
def decodeAddrWrite (mk : MemOperand → Reg → Instr) (f : Fields) : Except DecodeReason Decoded := do
  let dst ← memShape f.mode f.rd
  let rs ← regOfField f.rs
  return dst.finish fun m => mk m rs

/-- Class T: a jump target with base RS. -/
def decodeTarget (mk : MemOperand → Instr) (f : Fields) : Except DecodeReason Decoded := do
  let t ← memShape f.mode f.rs
  return t.finish mk

/-- Classes S and Q, and with RS class P: one register field, MODE ignored. -/
def decodeRegOnly (mk : Reg → Instr) (field : BitVec 3) : Except DecodeReason Decoded := do
  let r ← regOfField field
  return .short (mk r)

/-- Class I: a port operand with register RS, RD used. -/
def decodePortIn (mk : Reg → PortOperand → Instr) (f : Fields) : Except DecodeReason Decoded := do
  let p ← portShape f.mode f.rs
  let rd ← regOfField f.rd
  return p.finish (mk rd)

/-- Class O: a port operand with register RD, RS used. -/
def decodePortOut (mk : PortOperand → Reg → Instr) (f : Fields) : Except DecodeReason Decoded := do
  let p ← portShape f.mode f.rd
  let rs ← regOfField f.rs
  return p.finish fun q => mk q rs

/-- The opcode map (30_encoding.md rule R103); 25 to 31 are reserved (rule R108). -/
def decodeOpcode (f : Fields) : Except DecodeReason Decoded :=
  match f.opcode.toNat with
  | 0 => .ok (.short .nop)
  | 1 => .ok (.short .halt)
  | 2 => decodeValue .mov f
  | 3 => decodeAddrRead .load f
  | 4 => decodeAddrWrite .store f
  | 5 => decodeValue .add f
  | 6 => decodeValue .sub f
  | 7 => decodeValue .and f
  | 8 => decodeValue .or f
  | 9 => decodeValue .xor f
  | 10 => decodeValue .cmp f
  | 11 => decodeRegOnly .shl f.rd
  | 12 => decodeRegOnly .shr f.rd
  | 13 => decodeTarget .jmp f
  | 14 => decodeTarget .jz f
  | 15 => decodeTarget .jnz f
  | 16 => decodeTarget .jc f
  | 17 => decodeTarget .jnc f
  | 18 => decodeTarget .jn f
  | 19 => decodeTarget .call f
  | 20 => .ok (.short .ret)
  | 21 => decodeRegOnly .push f.rs
  | 22 => decodeRegOnly .pop f.rd
  | 23 => decodePortIn .inPort f
  | 24 => decodePortOut .outPort f
  | _ => .error .reservedOpcode

/-- Steps 2 to 7 of 30_encoding.md rule R104: the UNUSED bits are checked before the opcode is looked at
(rule R111), the mode before the registers. -/
def decodeBase (w : Word) : Except DecodeReason Decoded :=
  if (fieldsOf w).unused = 0 then decodeOpcode (fieldsOf w) else .error .unusedBits

/-- Why a byte sequence does not begin with an instruction. -/
inductive DecodeError where
  /-- The base word is rejected (30_encoding.md rule R104 steps 3 to 7). -/
  | rejected (r : DecodeReason)
  /-- The sequence ends inside the instruction. -/
  | truncated
  deriving DecidableEq, Repr

/-- The instruction at the head of a byte sequence, and the bytes after it (30_encoding.md rules R90, R92, R94). -/
def decode : List Byte → Except DecodeError (Instr × List Byte)
  | b0 :: b1 :: rest =>
    match decodeBase (wordOfBytes b0 b1) with
    | .error r => .error (.rejected r)
    | .ok (.short i) => .ok (i, rest)
    | .ok (.long complete) =>
      match rest with
      | e0 :: e1 :: rest' => .ok (complete (wordOfBytes e0 e1), rest')
      | _ => .error .truncated
  | _ => .error .truncated

/-- The four bytes, lowest address first, of an instruction whose bits are the lowest `nbits` bits of `w`,
numbered as spec/opcode_table.json numbers them; every bit above is 0. -/
def tableBytes (nbits w : Nat) : List Byte :=
  [BitVec.ofNat 8 (w % 2 ^ nbits), BitVec.ofNat 8 (w % 2 ^ nbits / 2 ^ 8), BitVec.ofNat 8 (w % 2 ^ nbits / 2 ^ 16),
    BitVec.ofNat 8 (w % 2 ^ nbits / 2 ^ 24)]

/-- The instruction the decoder reads from an instruction whose bits are `w`. -/
def decodeTableWord (nbits w : Nat) : Option Instr :=
  match decode (tableBytes nbits w) with
  | .ok (i, _) => some i
  | .error _ => none

/-! ## Encoding -/

/-- The number of a register (10_state.md rule R21). -/
def regField : Reg → BitVec 3
  | .r0 => 0
  | .r1 => 1
  | .r2 => 2
  | .r3 => 3

/-- The MODE of a memory operand (30_encoding.md rule R95). -/
def memMode : MemOperand → BitVec 3
  | .dir _ => 2
  | .ind _ => 3
  | .off _ _ => 4
  | .rel _ => 5

/-- The base register field of a memory operand, 0 where the mode ignores it (rules R101, R107). -/
def memBase : MemOperand → BitVec 3
  | .ind b | .off b _ => regField b
  | .dir _ | .rel _ => 0

/-- The extension word of a memory operand (rules R92, R93). -/
def memExt : MemOperand → Option Word
  | .dir e | .off _ e | .rel e => some e
  | .ind _ => none

/-- The MODE of a value operand. -/
def valueMode : Operand → BitVec 3
  | .reg _ => 0
  | .imm _ => 1
  | .mem m => memMode m

/-- The RS field of a value operand, 0 where the mode ignores it. -/
def valueReg : Operand → BitVec 3
  | .reg r => regField r
  | .imm _ => 0
  | .mem m => memBase m

/-- The extension word of a value operand. -/
def valueExt : Operand → Option Word
  | .reg _ => none
  | .imm e => some e
  | .mem m => memExt m

/-- The MODE of a port operand. -/
def portMode : PortOperand → BitVec 3
  | .reg _ => 0
  | .imm _ => 1

/-- The register field of a port operand, 0 where the mode ignores it. -/
def portReg : PortOperand → BitVec 3
  | .reg r => regField r
  | .imm _ => 0

/-- The extension word of a port operand. -/
def portExt : PortOperand → Option Word
  | .reg _ => none
  | .imm e => some e

/-- The fields of an instruction of class V. -/
def valueFields (opcode : BitVec 5) (rd : Reg) (o : Operand) : Fields :=
  { opcode := opcode, mode := valueMode o, rd := regField rd, rs := valueReg o, unused := 0 }

/-- The fields of an instruction of class T. -/
def targetFields (opcode : BitVec 5) (m : MemOperand) : Fields :=
  { opcode := opcode, mode := memMode m, rd := 0, rs := memBase m, unused := 0 }

/-- The canonical fields of an instruction: 0 in every ignored field and in UNUSED (30_encoding.md rules R103, R107). -/
def instrFields : Instr → Fields
  | .nop => { opcode := 0, mode := 0, rd := 0, rs := 0, unused := 0 }
  | .halt => { opcode := 1, mode := 0, rd := 0, rs := 0, unused := 0 }
  | .mov rd o => valueFields 2 rd o
  | .load rd m => { opcode := 3, mode := memMode m, rd := regField rd, rs := memBase m, unused := 0 }
  | .store m rs => { opcode := 4, mode := memMode m, rd := memBase m, rs := regField rs, unused := 0 }
  | .add rd o => valueFields 5 rd o
  | .sub rd o => valueFields 6 rd o
  | .and rd o => valueFields 7 rd o
  | .or rd o => valueFields 8 rd o
  | .xor rd o => valueFields 9 rd o
  | .cmp rd o => valueFields 10 rd o
  | .shl rd => { opcode := 11, mode := 0, rd := regField rd, rs := 0, unused := 0 }
  | .shr rd => { opcode := 12, mode := 0, rd := regField rd, rs := 0, unused := 0 }
  | .jmp m => targetFields 13 m
  | .jz m => targetFields 14 m
  | .jnz m => targetFields 15 m
  | .jc m => targetFields 16 m
  | .jnc m => targetFields 17 m
  | .jn m => targetFields 18 m
  | .call m => targetFields 19 m
  | .ret => { opcode := 20, mode := 0, rd := 0, rs := 0, unused := 0 }
  | .push rs => { opcode := 21, mode := 0, rd := 0, rs := regField rs, unused := 0 }
  | .pop rd => { opcode := 22, mode := 0, rd := regField rd, rs := 0, unused := 0 }
  | .inPort rd p => { opcode := 23, mode := portMode p, rd := regField rd, rs := portReg p, unused := 0 }
  | .outPort p rs => { opcode := 24, mode := portMode p, rd := portReg p, rs := regField rs, unused := 0 }

/-- The extension word of an instruction (30_encoding.md rule R93). -/
def instrExt : Instr → Option Word
  | .mov _ o | .add _ o | .sub _ o | .and _ o | .or _ o | .xor _ o | .cmp _ o => valueExt o
  | .load _ m | .store m _ => memExt m
  | .jmp m | .jz m | .jnz m | .jc m | .jnc m | .jn m | .call m => memExt m
  | .inPort _ p | .outPort p _ => portExt p
  | .nop | .halt | .shl _ | .shr _ | .ret | .push _ | .pop _ => none

/-- The words of an instruction: its base word and, where it has one, its extension word (rules R90, R92). -/
def encode (i : Instr) : List Word := wordOfFields (instrFields i) :: (instrExt i).toList

/-- The bytes of a sequence of words, lowest address first (20_memory.md rule R51). -/
def bytesOfWords : List Word → List Byte
  | [] => []
  | w :: ws => lowByte w :: highByte w :: bytesOfWords ws

/-- The bytes of an instruction, lowest address first. -/
def encodeBytes (i : Instr) : List Byte := bytesOfWords (encode i)

/-- The length of an instruction in bytes, 2 or 4 (30_encoding.md rules R90, R94). -/
def instrLength (i : Instr) : Nat := 2 * (encode i).length

end Sys2Proof
end

