-- ==== Sys2Proof/Machine/Memory.lean ====
section
/-! DEFINITION. Plain memory as a canonical list of bytes: reading, writing, the canonical form, and words in little-endian order (20_memory.md rules R50 to R54). -/

namespace Sys2Proof.Machine

/-- The byte at address `a`: its entry, or the byte an unlisted address reads as. -/
def Memory.read : Memory → Nat → Byte
  | [], _ => Config.unlistedByte
  | (k, b) :: rest, a => if k = a then b else Memory.read rest a

/-- The entry `(a, b)` put in its place in rising order, in the place of an entry for `a` already there. -/
def Memory.insert : Memory → Nat → Byte → Memory
  | [], a, b => [(a, b)]
  | (k, c) :: rest, a, b =>
    if a < k then (a, b) :: (k, c) :: rest
    else if a = k then (a, b) :: rest
    else (k, c) :: Memory.insert rest a b

/-- No entry for `a`. -/
def Memory.erase (m : Memory) (a : Nat) : Memory := m.filter fun c => c.1 != a

/-- The memory with byte `b` at address `a`, in canonical form: writing what an unlisted address reads as removes
the entry. -/
def Memory.write (m : Memory) (a : Nat) (b : Byte) : Memory :=
  if b = Config.unlistedByte then m.erase a else m.insert a b

/-- The canonical form: addresses strictly rise, every address is one of plain memory (20_memory.md rule R54), and no
entry equals what an unlisted address reads as. -/
abbrev Memory.wf (m : Memory) : Prop :=
  m.Pairwise (fun c d => c.1 < d.1) ∧ ∀ c ∈ m, c.1 < 0xF000 ∧ c.2 ≠ Config.unlistedByte

/-- The word at address `a`: bits 7:0 from the byte at `a`, bits 15:8 from the byte at `(a + 1) mod 65536`
(20_memory.md rules R50, R58). -/
def Memory.readWord (m : Memory) (a : Word) : Word :=
  wordOfBytes (m.read a.toNat) (m.read (a + 1).toNat)

/-- The memory with the word `v` at address `a` (20_memory.md rules R50, R62). -/
def Memory.writeWord (m : Memory) (a v : Word) : Memory :=
  (m.write a.toNat (lowByte v)).write (a + 1).toNat (highByte v)

end Sys2Proof.Machine
end

