-- ==== Sys2Proof/Machine/Ops.lean ====
section
/-! DEFINITION. The named operations every instruction is made of: register access, the memory map, the three access primitives, the I/O window, the stack, and raising and recording a fault (20_memory.md, 10_state.md, 60_exceptions.md). -/

namespace Sys2Proof.Machine

/-- The outcome of an instruction or of a step. -/
abbrev Result := Host.Outcome State Fault Refusal

/-! ## Registers -/

/-- The value of a general register (10_state.md rules R20, R21). -/
def Regs.get (g : Regs) : Reg → Word
  | .r0 => g.r0
  | .r1 => g.r1
  | .r2 => g.r2
  | .r3 => g.r3

/-- The registers with `v` in register `r`; R0 is an ordinary register (10_state.md rule R20). -/
def Regs.set (g : Regs) (r : Reg) (v : Word) : Regs :=
  match r with
  | .r0 => { g with r0 := v }
  | .r1 => { g with r1 := v }
  | .r2 => { g with r2 := v }
  | .r3 => { g with r3 := v }

/-- `R[r]` (00_scope.md rule R10). -/
def State.reg (s : State) (r : Reg) : Word := s.regs.get r

/-- `R[r] <- v` (00_scope.md rule R10). -/
def State.setReg (s : State) (r : Reg) (v : Word) : State := { s with regs := s.regs.set r v }

/-- `pc <- v`. -/
def State.setPc (s : State) (v : Word) : State := { s with pc := v }

/-- `sp <- v`. -/
def State.setSp (s : State) (v : Word) : State := { s with sp := v }

/-- The four flags written. -/
def State.setFlags (s : State) (f : Flags) : State := { s with flags := f }

/-- Plain memory replaced. -/
def State.setMem (s : State) (m : Memory) : State := { s with mem := m }

/-- `halted <- true` (40_nop_halt.md rule R131). -/
def State.halt (s : State) : State := { s with halted := true }

/-- FLAGS as an 8-bit value, `zext_8(V:C:N:Z)` (10_state.md rules R27, R28). -/
def Flags.toByte (f : Flags) : Byte :=
  0#4 ++ BitVec.ofBool f.v ++ BitVec.ofBool f.c ++ BitVec.ofBool f.n ++ BitVec.ofBool f.z

/-- The byte of plain memory at address `a`. -/
def State.byte (s : State) (a : Word) : Byte := s.mem.read a.toNat

/-! ## Faults -/

/-- A step that raises `r`: no next state, no effect (60_exceptions.md rules R200, R203). The machine has no trap
entry and no trap return (rule R205), so this is all that taking an exception is. -/
def raise (r : FaultReason) : Result := .fault (.raised r)

/-- The state a fault leaves: "the state is the state before the step, with fault set" (60_exceptions.md rule R203). -/
def State.recordFault (s : State) (r : FaultReason) : State := { s with fault := some r }

/-- The state of the run after a step of `s` answered `o`: the next state, or `s` with the raised fault recorded; a
state that has no step stays as it is (60_exceptions.md rules R200, R203). -/
def settle (s : State) (o : Result) : State :=
  match o with
  | .next t => t
  | .fault (.raised r) => s.recordFault r
  | .fault (.stuckFaulted _) => s
  | .fault .stuckHalted => s
  | .refused _ => s

/-- The model's number of a fault (60_exceptions.md rule R201, column Code). -/
def FaultReason.code : FaultReason → Nat
  | .fetchRegion _ => 1
  | .unusedBits _ => 2
  | .reservedOpcode _ => 3
  | .reservedMode _ => 4
  | .unsupportedMode _ => 5
  | .reservedRegister _ => 6
  | .ioPortRange _ => 7
  | .dataRegion _ => 8

/-- An instruction whose one access is done: its next state, or the fault of the access. -/
def finish : Except FaultReason State → Result
  | .ok t => .next t
  | .error r => raise r

/-- An instruction that uses a word read: the state `k` makes of it, or the fault of the read. Every write of the
instruction comes after the read (20_memory.md rule R63, 60_exceptions.md rule R203). -/
def finishWith (x : Except FaultReason (Word × State)) (k : Word → State → State) : Result :=
  match x with
  | .ok (v, t) => .next (k v t)
  | .error r => raise r

/-! ## The memory map -/

/-- The four regions of the address space (20_memory.md rule R53). -/
inductive Region where
  | ram | prog | io | rsvd
  deriving DecidableEq, Repr

/-- `region(a)` (20_memory.md rule R53). -/
def region (a : Word) : Region :=
  if a.toNat ≤ 0x7FFF then .ram
  else if a.toNat ≤ 0xEFFF then .prog
  else if a.toNat ≤ 0xF0FF then .io
  else .rsvd

/-- `plain(a)`: RAM or the program area (20_memory.md rule R54). -/
def plain (a : Word) : Bool := region a = .ram ∨ region a = .prog

/-- Both bytes of the word at `a` are plain memory; the second is at `(a + 1) mod 65536` (20_memory.md rule R58). -/
def plainWord (a : Word) : Bool := plain a && plain (a + 1)

/-! ## The I/O window -/

/-- The value the environment answers to the next read of the window register `a`: any value, chosen by the oracle from
the history and the address (20_memory.md rule R66; log entry 4). -/
def ioAnswer (a : Word) (s : State) : Word := Config.ioRead s.ioTrace a

/-- The state after a read transaction that answered `v`. -/
def State.logRead (s : State) (a v : Word) : State :=
  { s with ioTrace := s.ioTrace ++ [.read a v] }

/-- The state after a write transaction of `v`. -/
def State.logWrite (s : State) (a v : Word) : State :=
  { s with ioTrace := s.ioTrace ++ [.write a v] }

/-- `IoRead(a)`: one transaction, addressed by `a` alone (20_memory.md rule R66). -/
def ioRead (a : Word) (s : State) : Word × State := (ioAnswer a s, s.logRead a (ioAnswer a s))

/-- `IoWrite(a, v)`: one transaction that changes nothing but the trace (20_memory.md rule R67). -/
def ioWrite (a v : Word) (s : State) : State := s.logWrite a v

/-! ## The three access primitives -/

/-- `Fetch16(a)` (20_memory.md rule R60). -/
def fetch16 (a : Word) (s : State) : Except FaultReason Word :=
  if plainWord a then .ok (s.mem.readWord a) else .error (.fetchRegion a)

/-- `MemRead(a, 2)` (20_memory.md rule R61). -/
def memRead (a : Word) (s : State) : Except FaultReason (Word × State) :=
  if region a = .io then .ok (ioRead a s)
  else if plainWord a then .ok (s.mem.readWord a, s)
  else .error (.dataRegion a)

/-- `MemWrite(a, 2, v)` (20_memory.md rule R62). -/
def memWrite (a v : Word) (s : State) : Except FaultReason State :=
  if region a = .io then .ok (ioWrite a v s)
  else if plainWord a then .ok (s.setMem (s.mem.writeWord a v))
  else .error (.dataRegion a)

/-! ## The stack -/

/-- The address a push writes to: pre-decrement by 2, modulo 65536 (10_state.md rules R31, R33). -/
def pushAddress (s : State) : Word := s.sp - 2

/-- A push: SP is committed only if the write does not fault (10_state.md rule R31, 60_exceptions.md rule R203). -/
def push (v : Word) (s : State) : Except FaultReason State :=
  match memWrite (pushAddress s) v s with
  | .ok t => .ok (t.setSp (pushAddress s))
  | .error r => .error r

/-- A pop: post-increment by 2, modulo 65536 (10_state.md rules R31, R33). -/
def pop (s : State) : Except FaultReason (Word × State) :=
  match memRead s.sp s with
  | .ok (v, t) => .ok (v, t.setSp (s.sp + 2))
  | .error r => .error r

/-! ## Loading from outside the machine -/

/-- Bytes put into plain memory from address `a` upwards, by the environment (70_reset_and_hazards.md rule R236:
loading is not a sequence of CPU stores and leaves no trace). A byte outside plain memory is not stored. -/
def Memory.load (m : Memory) (a : Word) : List Byte → Memory
  | [] => m
  | b :: bs => Memory.load (if plain a then m.write a.toNat b else m) (a + 1) bs

end Sys2Proof.Machine
end

