-- ==== Sys2Proof/Machine/Operands.lean ====
section
/-! DEFINITION. The operand forms: effective addresses, value operands and port numbers (30_encoding.md rules R97 to R101, 45_io.md rule R190). The pc of the state is already the address of the next sequential instruction (rule R104 step 9). -/

namespace Sys2Proof.Machine

/-- `a + sext_16(ext)` modulo 65536 (30_encoding.md rules R97, R99): the extension word sign-extended to 32 bits is
added and the sum reduced to 16 bits. -/
def addSigned (a ext : Word) : Word := (a.setWidth 32 + ext.signExtend 32).setWidth 16

/-- `EA(mode, b, ext, pc)` (30_encoding.md rule R99). -/
def effectiveAddress (m : MemOperand) (s : State) : Word :=
  match m with
  | .dir ext => ext
  | .ind b => s.reg b
  | .off b ext => addSigned (s.reg b) ext
  | .rel ext => addSigned s.pc ext

/-- `operand(mode, RS, ext, pc)` (30_encoding.md rule R100): the value, and the state after the one read a memory
operand makes. -/
def valueOperand (o : Operand) (s : State) : Except FaultReason (Word × State) :=
  match o with
  | .reg r => .ok (s.reg r, s)
  | .imm ext => .ok (ext, s)
  | .mem m => memRead (effectiveAddress m s) s

/-- The port number of IN or OUT, from a register or the extension word (45_io.md rule R190). -/
def portNumber (p : PortOperand) (s : State) : Word :=
  match p with
  | .reg r => s.reg r
  | .imm ext => ext

/-- The window address of port `p`: 0xF000 + p (45_io.md rule R190). -/
def portAddress (p : Word) : Word := 0xF000 + p

/-- The port number names a port: it is at most 0x00FF (45_io.md rule R190). -/
def portInRange (p : Word) : Bool := decide (p.toNat ≤ 0x00FF)

end Sys2Proof.Machine
end

