-- ==== Sys2Proof/Machine/Alu.lean ====
section
/-! DEFINITION. ADD, SUB, AND, OR, XOR, CMP, SHL and SHR (42_alu.md rules R150 to R161). Both operands are read before anything is written (rule R150). -/

namespace Sys2Proof.Machine

/-- ADD (42_alu.md rule R154). -/
def execAdd (rd : Reg) (src : Operand) (s : State) : Result :=
  finishWith (valueOperand src s) fun b t =>
    (t.setReg rd (s.reg rd + b)).setFlags (addFlags (s.reg rd) b)

/-- SUB (42_alu.md rule R155). -/
def execSub (rd : Reg) (src : Operand) (s : State) : Result :=
  finishWith (valueOperand src s) fun b t =>
    (t.setReg rd (s.reg rd - b)).setFlags (subFlags (s.reg rd) b)

/-- AND (42_alu.md rule R156). -/
def execAnd (rd : Reg) (src : Operand) (s : State) : Result :=
  finishWith (valueOperand src s) fun b t =>
    (t.setReg rd (s.reg rd &&& b)).setFlags (logicFlags (s.reg rd &&& b) s.flags)

/-- OR (42_alu.md rule R157). -/
def execOr (rd : Reg) (src : Operand) (s : State) : Result :=
  finishWith (valueOperand src s) fun b t =>
    (t.setReg rd (s.reg rd ||| b)).setFlags (logicFlags (s.reg rd ||| b) s.flags)

/-- XOR (42_alu.md rule R158). -/
def execXor (rd : Reg) (src : Operand) (s : State) : Result :=
  finishWith (valueOperand src s) fun b t =>
    (t.setReg rd (s.reg rd ^^^ b)).setFlags (logicFlags (s.reg rd ^^^ b) s.flags)

/-- CMP: the flags of SUB, no register (42_alu.md rule R159). -/
def execCmp (rd : Reg) (src : Operand) (s : State) : Result :=
  finishWith (valueOperand src s) fun b t => t.setFlags (subFlags (s.reg rd) b)

/-- SHL, by one bit (42_alu.md rule R160). -/
def execShl (rd : Reg) (s : State) : Result :=
  .next ((s.setReg rd (shlResult (s.reg rd))).setFlags (shlFlags (s.reg rd)))

/-- SHR, by one bit (42_alu.md rule R161). -/
def execShr (rd : Reg) (s : State) : Result :=
  .next ((s.setReg rd (shrResult (s.reg rd))).setFlags (shrFlags (s.reg rd)))

end Sys2Proof.Machine
end

