-- ==== Sys2Proof/Machine/Control.lean ====
section
/-! DEFINITION. NOP and HALT (40_nop_halt.md rules R130, R131). -/

namespace Sys2Proof.Machine

/-- NOP: nothing but the pc that the fetch has already moved (40_nop_halt.md rule R130). -/
def execNop (s : State) : Result := .next s

/-- HALT: `halted <- true`; the pc stays past the HALT word (40_nop_halt.md rule R131). -/
def execHalt (s : State) : Result := .next s.halt

end Sys2Proof.Machine
end

