-- ==== Sys2Proof/Machine/Io.lean ====
section
/-! DEFINITION. IN and OUT (45_io.md rules R190 to R192). The range of the port number is checked before the access (60_exceptions.md rule R204). -/

namespace Sys2Proof.Machine

/-- IN: `R[RD] <- MemRead(0xF000 + p, 2)` for a port number p of at most 0x00FF (45_io.md rule R191). -/
def execInPort (rd : Reg) (port : PortOperand) (s : State) : Result :=
  if portInRange (portNumber port s) then
    finishWith (memRead (portAddress (portNumber port s)) s) fun v t => t.setReg rd v
  else raise (.ioPortRange (portNumber port s))

/-- OUT: `MemWrite(0xF000 + p, 2, R[RS])` for a port number p of at most 0x00FF (45_io.md rule R192). -/
def execOutPort (port : PortOperand) (rs : Reg) (s : State) : Result :=
  if portInRange (portNumber port s) then
    finish (memWrite (portAddress (portNumber port s)) (s.reg rs) s)
  else raise (.ioPortRange (portNumber port s))

end Sys2Proof.Machine
end

