-- ==== Sys2Proof/Machine/Jump.lean ====
section
/-! DEFINITION. JMP, JZ, JNZ, JC, JNC and JN (43_jumps.md rules R170 to R176). The target is the effective address itself (rule R170). -/

namespace Sys2Proof.Machine

/-- A jump taken when `taken` holds; the pc is already past the whole instruction (30_encoding.md rule R105). -/
def jumpWhen (taken : Bool) (target : MemOperand) (s : State) : Result :=
  .next (if taken then s.setPc (effectiveAddress target s) else s)

/-- JMP (43_jumps.md rule R171). -/
def execJmp (target : MemOperand) (s : State) : Result := jumpWhen true target s

/-- JZ: taken if Z = 1 (43_jumps.md rule R172). -/
def execJz (target : MemOperand) (s : State) : Result := jumpWhen s.flags.z target s

/-- JNZ: taken if Z = 0 (43_jumps.md rule R173). -/
def execJnz (target : MemOperand) (s : State) : Result := jumpWhen (!s.flags.z) target s

/-- JC: taken if C = 1 (43_jumps.md rule R174). -/
def execJc (target : MemOperand) (s : State) : Result := jumpWhen s.flags.c target s

/-- JNC: taken if C = 0 (43_jumps.md rule R175). -/
def execJnc (target : MemOperand) (s : State) : Result := jumpWhen (!s.flags.c) target s

/-- JN: taken if N = 1 (43_jumps.md rule R176). -/
def execJn (target : MemOperand) (s : State) : Result := jumpWhen s.flags.n target s

end Sys2Proof.Machine
end

