-- ==== Sys2Proof/Machine/Move.lean ====
section
/-! DEFINITION. MOV, LOAD and STORE (41_data_movement.md rules R140 to R142). -/

namespace Sys2Proof.Machine

/-- MOV: `R[RD] <- operand`; no flag (41_data_movement.md rule R140). -/
def execMov (rd : Reg) (src : Operand) (s : State) : Result :=
  finishWith (valueOperand src s) fun v t => t.setReg rd v

/-- `R[RD] <- MemRead(EA, 2)`, with Z and N written where the argument is true (41_data_movement.md rule R141): LOAD at
each value of the parameter `LOAD_UPDATES_ZN` (00_scope.md rule R7). -/
def loadWith (updatesZN : Bool) (rd : Reg) (src : MemOperand) (s : State) : Result :=
  finishWith (memRead (effectiveAddress src s) s) fun v t =>
    (t.setReg rd v).setFlags (loadFlags updatesZN v s.flags)

/-- LOAD, at the machine's own value of `LOAD_UPDATES_ZN` (41_data_movement.md rule R141). -/
def execLoad (rd : Reg) (src : MemOperand) (s : State) : Result := loadWith Config.loadUpdatesZN rd src s

/-- STORE: `MemWrite(EA, 2, R[RS])`; the base register is the one the RD field names (41_data_movement.md rule
R142, 30_encoding.md rule R101). -/
def execStore (dst : MemOperand) (rs : Reg) (s : State) : Result :=
  finish (memWrite (effectiveAddress dst s) (s.reg rs) s)

end Sys2Proof.Machine
end

