-- ==== Sys2Proof/Machine/Stack.lean ====
section
/-! DEFINITION. CALL, RET, PUSH and POP (44_subroutine_stack.md rules R180 to R183). -/

namespace Sys2Proof.Machine

/-- CALL: push the address of the next sequential instruction, then jump; the target is computed before SP changes
(44_subroutine_stack.md rule R180). -/
def execCall (target : MemOperand) (s : State) : Result :=
  match push s.pc s with
  | .ok t => .next (t.setPc (effectiveAddress target s))
  | .error r => raise r

/-- RET: pop PC (44_subroutine_stack.md rule R181). -/
def execRet (s : State) : Result := finishWith (pop s) fun v t => t.setPc v

/-- PUSH: push `R[RS]` (44_subroutine_stack.md rule R182). -/
def execPush (rs : Reg) (s : State) : Result := finish (push (s.reg rs) s)

/-- POP: pop into `R[RD]` (44_subroutine_stack.md rule R183). -/
def execPop (rd : Reg) (s : State) : Result := finishWith (pop s) fun v t => t.setReg rd v

end Sys2Proof.Machine
end

