-- ==== Sys2Proof/Machine/Dispatch.lean ====
section
/-! DEFINITION. One arm per instruction: step 9 of 30_encoding.md rule R104, at a state whose pc is already past the instruction. -/

namespace Sys2Proof.Machine

def exec (i : Instr) (s : State) : Host.Outcome State Fault Refusal :=
  match i with
  | .nop => Sys2Proof.Machine.execNop s
  | .halt => Sys2Proof.Machine.execHalt s
  | .mov rd src => Sys2Proof.Machine.execMov rd src s
  | .load rd src => Sys2Proof.Machine.execLoad rd src s
  | .store dst rs => Sys2Proof.Machine.execStore dst rs s
  | .add rd src => Sys2Proof.Machine.execAdd rd src s
  | .sub rd src => Sys2Proof.Machine.execSub rd src s
  | .and rd src => Sys2Proof.Machine.execAnd rd src s
  | .or rd src => Sys2Proof.Machine.execOr rd src s
  | .xor rd src => Sys2Proof.Machine.execXor rd src s
  | .cmp rd src => Sys2Proof.Machine.execCmp rd src s
  | .shl rd => Sys2Proof.Machine.execShl rd s
  | .shr rd => Sys2Proof.Machine.execShr rd s
  | .jmp target => Sys2Proof.Machine.execJmp target s
  | .jz target => Sys2Proof.Machine.execJz target s
  | .jnz target => Sys2Proof.Machine.execJnz target s
  | .jc target => Sys2Proof.Machine.execJc target s
  | .jnc target => Sys2Proof.Machine.execJnc target s
  | .jn target => Sys2Proof.Machine.execJn target s
  | .call target => Sys2Proof.Machine.execCall target s
  | .ret => Sys2Proof.Machine.execRet s
  | .push rs => Sys2Proof.Machine.execPush rs s
  | .pop rd => Sys2Proof.Machine.execPop rd s
  | .inPort rd port => Sys2Proof.Machine.execInPort rd port s
  | .outPort port rs => Sys2Proof.Machine.execOutPort port rs s

end Sys2Proof.Machine
end

