-- ==== Sys2Proof/Machine/Fetch.lean ====
section
/-! DEFINITION. Fetching and decoding the instruction at the pc: steps 1 to 8 of 30_encoding.md rule R104. -/

namespace Sys2Proof.Machine

/-- The fault of a rejected base word `w`, which records the word (60_exceptions.md rule R201). -/
def decodeFault (w : Word) : DecodeReason → FaultReason
  | .unusedBits => .unusedBits w
  | .reservedOpcode => .reservedOpcode w
  | .reservedMode => .reservedMode w
  | .unsupportedMode => .unsupportedMode w
  | .reservedRegister => .reservedRegister w

/-- The instruction at the pc and the address of the next sequential instruction, or the first fault in the order of
30_encoding.md rule R104: the base word's fetch, the checks of the base word, the extension word's fetch. -/
def fetchInstr (s : State) : Except FaultReason (Instr × Word) :=
  match fetch16 s.pc s with
  | .error r => .error r
  | .ok w =>
    match decodeBase w with
    | .error r => .error (decodeFault w r)
    | .ok (.short i) => .ok (i, s.pc + 2)
    | .ok (.long complete) =>
      match fetch16 (s.pc + 2) s with
      | .error r => .error r
      | .ok ext => .ok (complete ext, s.pc + 4)

end Sys2Proof.Machine
end

