-- ==== Sys2Proof/Machine/Step.lean ====
section
/-! DEFINITION. One step of the machine (00_scope.md rule R12, 30_encoding.md rule R104), the run it makes, and an instruction placed where the next step fetches. -/

namespace Sys2Proof.Machine

/-- One step: none from a faulted or a halted state (60_exceptions.md rule R200, 40_nop_halt.md rule R131), else the
instruction at the pc, executed with the pc already past it. -/
def step (s : State) : Host.Outcome State Fault Refusal :=
  match s.fault with
  | some r => .fault (.stuckFaulted r)
  | none =>
    if s.halted then .fault .stuckHalted
    else
      match fetchInstr s with
      | .error r => raise r
      | .ok (i, next) => exec i (s.setPc next)

/-- The state of the run after one step, with a raised fault recorded in the state before the step
(60_exceptions.md rules R200, R203). -/
def advance (s : State) : State := settle s (step s)

/-- `s` with the instruction whose bits are the lowest `nbits` bits of `w` in plain memory at the pc, where `step`
fetches; nothing else changes. It stands for the environment's load of a program (70_reset_and_hazards.md rule R236;
log entry 3). -/
def State.withFetchWord (s : State) (nbits w : Nat) : State :=
  s.setMem (s.mem.load s.pc (tableBytes nbits w))

end Sys2Proof.Machine
end

