-- ==== Sys2Proof/Safety.lean ====
section
/-! DEFINITION. What counts as the end of a run and as a safe run (60_exceptions.md rules R200, R207, R222), what a program printed (20_memory.md rule R68), and the invariant of the machine. -/

namespace Sys2Proof.Safety

open Sys2Proof.Machine

/-- The normal end of a run: halted with no fault (60_exceptions.md rule R222, 40_nop_halt.md rule R131). -/
abbrev endedNormally (s : State) : Prop := s.halted = true ∧ s.fault = none

/-- The abnormal end of a run: a recorded fault (60_exceptions.md rule R222). -/
abbrev endedAbnormally (s : State) : Prop := s.fault ≠ none

/-- The run has ended (60_exceptions.md rule R222). -/
abbrev ended (s : State) : Prop := s.halted = true ∨ s.fault ≠ none

/-- The run of at most `n` steps from `s` raises no fault (60_exceptions.md rules R200, R207): a claim that a program is
correct must show that no fault is reached. A halted state is a safe end. -/
def faultFree : Nat → State → Bool
  | 0, s => s.fault.isNone
  | n + 1, s =>
    match step s with
    | .next t => faultFree n t
    | .fault .stuckHalted => true
    | .fault (.raised _) => false
    | .fault (.stuckFaulted _) => false
    | .refused _ => false

/-- The characters printed: `v[7:0]` over the `Write(0xF000, v)` events of the trace (20_memory.md rules R65, R68). -/
def printed : List IoEvent → List Byte
  | [] => []
  | .read _ _ :: rest => printed rest
  | .write a v :: rest => if a = 0xF000 then lowByte v :: printed rest else printed rest

/-- An event of the trace is a transaction with the I/O window (20_memory.md rules R55, R66, R67). -/
def eventInWindow : IoEvent → Bool
  | .read a _ => region a = .io
  | .write a _ => region a = .io

/-- The invariant of the machine: memory keeps its canonical form and lists plain memory only, and the trace holds
transactions with the I/O window only. -/
abbrev Inv (s : State) : Prop :=
  s.mem.wf ∧ ∀ e ∈ s.ioTrace, eventInWindow e = true

end Sys2Proof.Safety
end

