-- ==== Sys2Proof/Certificates/Slice0/Obligations.lean ====
section
/-! DEFINITION. The statements for the provers, one def Obligations.<Name> : Prop each, and the few words they are written in. A docstring names the rule of spec/ a statement formalises and, where a clause rests on a decision of the spec or on a choice of the model, says so. -/

namespace Sys2Proof.Claims

open Sys2Proof.Machine

/-- `a` is an address of the I/O window, 0xF000 to 0xF0FF (20_memory.md rule R53). -/
abbrev InWindow (a : Word) : Prop := 0xF000 ≤ a.toNat ∧ a.toNat ≤ 0xF0FF

/-- The word at `a` lies in plain memory with both bytes (20_memory.md rules R54, R59). -/
abbrev InPlain (a : Word) : Prop := a.toNat < 0xEFFF

/-- A data access at `a` has a meaning: plain memory or the window (20_memory.md rule R59). -/
abbrev Accessible (a : Word) : Prop := InPlain a ∨ InWindow a

/-- The word a data read at `a` delivers: two bytes of plain memory, the low one at `a`, or the environment's answer. -/
def wordAt (a : Word) (s : State) : Word :=
  if InWindow a then ioAnswer a s else BitVec.ofNat 16 (s.byte a).toNat + BitVec.ofNat 16 ((s.byte (a + 1)).toNat * 256)

/-- The state after a data read at `a`: as before, or with one read transaction logged. -/
def afterRead (a : Word) (s : State) : State :=
  if InWindow a then { s with ioTrace := s.ioTrace ++ [.read a (ioAnswer a s)] } else s

/-- `t` is `s` after a data write of `v` at an accessible `a`: two bytes of plain memory, or one write transaction. -/
def WrittenAt (a v : Word) (s t : State) : Prop :=
  (InWindow a → t = { s with ioTrace := s.ioTrace ++ [.write a v] }) ∧
    (InPlain a → { t with mem := s.mem } = s ∧ (t.byte a).toNat = v.toNat % 256 ∧
      (t.byte (a + 1)).toNat = v.toNat / 256 ∧ ∀ x, x ≠ a → x ≠ a + 1 → t.byte x = s.byte x)

/-- A value operand is readable: it reads no memory, or at an accessible address. -/
def OperandReadable (o : Operand) (s : State) : Prop :=
  match o with
  | .reg _ | .imm _ => True
  | .mem m => Accessible (effectiveAddress m s)

/-- The value of a value operand (30_encoding.md rule R100). -/
def operandValue (o : Operand) (s : State) : Word :=
  match o with
  | .reg r => s.reg r
  | .imm v => v
  | .mem m => wordAt (effectiveAddress m s) s

/-- The state after the one read of a value operand. -/
def afterOperand (o : Operand) (s : State) : State :=
  match o with
  | .reg _ | .imm _ => s
  | .mem m => afterRead (effectiveAddress m s) s

/-- The state after a LOAD of `v` at the effective address of `m`, for each value of LOAD_UPDATES_ZN (41_data_movement.md
rule R141). -/
def afterLoad (updatesZN : Bool) (rd : Reg) (m : MemOperand) (v : Word) (s : State) : State :=
  { afterRead (effectiveAddress m s) s with
    regs := s.regs.set rd v
    flags := { s.flags with
      z := if updatesZN = true then decide (v = 0) else s.flags.z
      n := if updatesZN = true then v.msb else s.flags.n } }

/-- The register an instruction writes, if any (10_state.md rule R22, column Writes). -/
def destination : Instr → Option Reg
  | .mov rd _ | .load rd _ | .add rd _ | .sub rd _ | .and rd _ | .or rd _ | .xor rd _ => some rd
  | .shl rd | .shr rd | .pop rd | .inPort rd _ => some rd
  | .nop | .halt | .store _ _ | .cmp _ _ | .jmp _ | .jz _ | .jnz _ | .jc _ | .jnc _ | .jn _ | .call _ => none
  | .ret | .push _ | .outPort _ _ => none

/-- The instructions that read or write SP (10_state.md rule R32). -/
def usesStack : Instr → Bool
  | .push _ | .pop _ | .call _ | .ret => true
  | _ => false

/-- The instructions that write the pc (10_state.md rule R25). -/
def transfersControl : Instr → Bool
  | .jmp _ | .jz _ | .jnz _ | .jc _ | .jnc _ | .jn _ | .call _ | .ret => true
  | _ => false

/-- The instructions of the last row of 10_state.md rule R29, which write no flag. -/
def writesNoFlag : Instr → Bool
  | .nop | .halt | .mov _ _ | .store _ _ | .jmp _ | .jz _ | .jnz _ | .jc _ | .jnc _ | .jn _ => true
  | .call _ | .ret | .push _ | .pop _ | .inPort _ _ | .outPort _ _ => true
  | _ => false

/-- The address an instruction's data write goes to, computed as its meaning computes it (20_memory.md rule R63);
none for an instruction that stores nothing to an address of its own. OUT writes to the window alone. -/
def storeAddress (i : Instr) (s : State) : Option Word :=
  match i with
  | .store dst _ => some (effectiveAddress dst s)
  | .push _ | .call _ => some (pushAddress s)
  | _ => none

/-- The memory operand of an instruction, if it has one (30_encoding.md rules R99, R100). -/
def memoryOperand : Instr → Option MemOperand
  | .mov _ (.mem m) | .add _ (.mem m) | .sub _ (.mem m) | .and _ (.mem m) | .or _ (.mem m) | .xor _ (.mem m) => some m
  | .cmp _ (.mem m) | .load _ m | .store m _ => some m
  | .jmp m | .jz m | .jnz m | .jc m | .jnc m | .jn m | .call m => some m
  | _ => none

/-- `s` can take a step (60_exceptions.md rule R200, 40_nop_halt.md rule R131). -/
abbrev Running (s : State) : Prop := s.fault = none ∧ s.halted = false

/-- A step's or an instruction's outcome with the flag V forgotten. -/
def forgetV : Result → Result
  | .next t => .next { t with flags := { t.flags with v := false } }
  | .fault f => .fault f
  | .refused r => .refused r

/-- A step's or an instruction's outcome with SP replaced. -/
def withSp (x : Word) : Result → Result
  | .next t => .next { t with sp := x }
  | .fault f => .fault f
  | .refused r => .refused r

/-- Bytes `bs` stand in plain memory from address `a` upwards. -/
def BytesAt (s : State) : Word → List Byte → Prop
  | _, [] => True
  | a, b :: bs => a.toNat ≤ 0xEFFF ∧ s.byte a = b ∧ BytesAt s (a + 1) bs

end Sys2Proof.Claims

open Sys2Proof Sys2Proof.Machine Sys2Proof.Claims Sys2Proof.Safety

/-! ## Encoding -/

/-- R91: a base word as a number is made of its five fields, OPCODE in bits 15:11 down to UNUSED in bits 1:0. -/
def Obligations.BaseWordIsMadeOfItsFields : Prop :=
  ∀ w : Word,
    (fieldsOf w).opcode.toNat = w.toNat / 2048 ∧ (fieldsOf w).mode.toNat = w.toNat / 256 % 8 ∧
    (fieldsOf w).rd.toNat = w.toNat / 32 % 8 ∧ (fieldsOf w).rs.toNat = w.toNat / 4 % 8 ∧
    (fieldsOf w).unused.toNat = w.toNat % 4 ∧
    w.toNat = (fieldsOf w).opcode.toNat * 2048 + (fieldsOf w).mode.toNat * 256 + (fieldsOf w).rd.toNat * 32 +
      (fieldsOf w).rs.toNat * 4 + (fieldsOf w).unused.toNat

/-- Decoding the canonical words of any instruction, followed by any bytes, gives that instruction and those bytes.
Rests on the field assignment of R102 and R107 (decisions D7, D8, D9 of the spec). -/
def Obligations.DecodeOfEncodeIsTheInstruction : Prop :=
  ∀ (i : Instr) (rest : List Byte), decode (encodeBytes i ++ rest) = .ok (i, rest)

/-- The other direction: the bytes the decoder reads an instruction from are its base word, with the instruction's own
opcode and the instruction's own value in every field its class uses (R102, R106), clear UNUSED bits, and after it the
instruction's extension word, if it has one (R92, R93). Rests on decisions D7, D8, D9 of the spec. -/
def Obligations.DecodedBytesHoldTheInstruction : Prop :=
  ∀ (bs : List Byte) (i : Instr) (rest : List Byte), decode bs = .ok (i, rest) →
    ∃ (w : Word) (c : OpClass),
      bs = lowByte w :: highByte w :: (bytesOfWords (instrExt i).toList ++ rest) ∧
      opClass (fieldsOf w).opcode = some c ∧
      (fieldsOf w).opcode = (instrFields i).opcode ∧ (fieldsOf w).unused = 0 ∧
      (c.usesMode = true → (fieldsOf w).mode = (instrFields i).mode) ∧
      (c.usesRd (fieldsOf w).mode = true → (fieldsOf w).rd = (instrFields i).rd) ∧
      (c.usesRs (fieldsOf w).mode = true → (fieldsOf w).rs = (instrFields i).rs)

/-- R112: every base word either selects an instruction or is rejected, and it selects one exactly when it passes the
checks of R104 steps 3 to 7 with the class table of R102 (decisions D8, D9, D10 of the spec). -/
def Obligations.DecodeAcceptsExactlyWellFormedWords : Prop :=
  ∀ w : Word, (∃ d, decodeBase w = .ok d) ↔ (fieldsOf w).wellFormed = true

/-- R104 steps 3 to 7 and R204: the checks are made in order and the first that fails names the rejection
(decisions D10, D20 of the spec). -/
def Obligations.DecodeChecksComeInOrder : Prop :=
  ∀ w : Word,
    ((fieldsOf w).unusedClear = false → decodeBase w = .error .unusedBits) ∧
    ((fieldsOf w).unusedClear = true → (fieldsOf w).opcodeAssigned = false → decodeBase w = .error .reservedOpcode) ∧
    ((fieldsOf w).unusedClear = true → (fieldsOf w).opcodeAssigned = true → (fieldsOf w).modeNotReserved = false →
      decodeBase w = .error .reservedMode) ∧
    ((fieldsOf w).unusedClear = true → (fieldsOf w).opcodeAssigned = true → (fieldsOf w).modeNotReserved = true →
      (fieldsOf w).modeAdmitted = false → decodeBase w = .error .unsupportedMode) ∧
    ((fieldsOf w).unusedClear = true → (fieldsOf w).opcodeAssigned = true → (fieldsOf w).modeNotReserved = true →
      (fieldsOf w).modeAdmitted = true → ((fieldsOf w).rdNamesRegister && (fieldsOf w).rsNamesRegister) = false →
      decodeBase w = .error .reservedRegister)

/-- R106, R107: two base words with clear UNUSED bits and one opcode, which agree in every field the class uses at the
mode, decode alike: an ignored field causes no fault and changes neither length nor instruction (decision D9). -/
def Obligations.IgnoredFieldsDoNotMatter : Prop :=
  ∀ (w w' : Word) (c : OpClass), opClass (fieldsOf w).opcode = some c → (fieldsOf w).opcode = (fieldsOf w').opcode →
    (fieldsOf w).unused = 0 → (fieldsOf w').unused = 0 →
    (c.usesMode = true → (fieldsOf w).mode = (fieldsOf w').mode) →
    (c.usesRd (fieldsOf w).mode = true → (fieldsOf w).rd = (fieldsOf w').rd) →
    (c.usesRs (fieldsOf w).mode = true → (fieldsOf w).rs = (fieldsOf w').rs) →
    decodeBase w = decodeBase w'

/-- A few words written out from R91 and R103 decode to what they stand for, one of every class; 0x0000 is NOP and
0xFFFF is rejected for its UNUSED bits (R112). -/
def Obligations.WordsWrittenOutDecode : Prop :=
  decode [0x00, 0x00] = .ok (.nop, []) ∧
  decode [0x04, 0x28] = .ok (.add .r0 (.reg .r1), []) ∧
  decode [0x00, 0x29, 0x0A, 0x00] = .ok (.add .r0 (.imm 10), []) ∧
  decode [0x28, 0x1C, 0x04, 0x00] = .ok (.load .r1 (.off .r2 4), []) ∧
  decode [0x4C, 0x23] = .ok (.store (.ind .r2) .r3, []) ∧
  decode [0x20, 0x60] = .ok (.shr .r1, []) ∧
  decode [0x00, 0x75, 0xF6, 0xFF] = .ok (.jz (.rel 0xFFF6), []) ∧
  decode [0x08, 0xA8] = .ok (.push .r2, []) ∧
  decode [0x60, 0xB0] = .ok (.pop .r3, []) ∧
  decode [0x44, 0xB8] = .ok (.inPort .r2 (.reg .r1), []) ∧
  decode [0x04, 0xC1, 0x00, 0x00] = .ok (.outPort (.imm 0) .r1, []) ∧
  decode [0xFF, 0xFF] = .error (.rejected .unusedBits)

/-! ## The step -/

/-- R24, R104: where the bytes at the pc of a running machine decode to an instruction, the step is that instruction
executed with the pc moved past its words, 2 for every word fetched. -/
def Obligations.StepRunsTheDecodedInstruction : Prop :=
  ∀ (s : State) (bs : List Byte) (i : Instr), Running s → BytesAt s s.pc bs → decode bs = .ok (i, []) →
    step s = exec i { s with pc := s.pc + BitVec.ofNat 16 (2 * (encode i).length) }

/-- R60, R104 steps 1 and 8: a base word not wholly in plain memory faults with its address, and so does the
extension word of an instruction that has one (decision D5 of the spec). -/
def Obligations.FetchOutsidePlainMemoryFaults : Prop :=
  (∀ s : State, Running s → 0xEFFF ≤ s.pc.toNat → step s = .fault (.raised (.fetchRegion s.pc))) ∧
  (∀ s : State, Running s → s.pc.toNat < 0xEFFF →
    (fieldsOf (wordOfBytes (s.byte s.pc) (s.byte (s.pc + 1)))).wellFormed = true →
    (fieldsOf (wordOfBytes (s.byte s.pc) (s.byte (s.pc + 1)))).hasExtension = true →
    0xEFFF ≤ (s.pc + 2).toNat → step s = .fault (.raised (.fetchRegion (s.pc + 2))))

/-- R104, R201: a rejected base word in plain memory ends the step with the fault of its rejection, which records the
word, and no extension word is fetched first (decisions D10, D20 of the spec). -/
def Obligations.RejectedWordFaults : Prop :=
  ∀ (s : State) (w : Word), Running s → s.pc.toNat < 0xEFFF → w = wordOfBytes (s.byte s.pc) (s.byte (s.pc + 1)) →
    (decodeBase w = .error .unusedBits → step s = .fault (.raised (.unusedBits w))) ∧
    (decodeBase w = .error .reservedOpcode → step s = .fault (.raised (.reservedOpcode w))) ∧
    (decodeBase w = .error .reservedMode → step s = .fault (.raised (.reservedMode w))) ∧
    (decodeBase w = .error .unsupportedMode → step s = .fault (.raised (.unsupportedMode w))) ∧
    (decodeBase w = .error .reservedRegister → step s = .fault (.raised (.reservedRegister w)))

/-- R200, R131: a state with a recorded fault or with `halted` set has no step, and no other state answers so
(decisions D19, D20 of the spec; that the fault is asked for first is the model's choice, log entry 8). -/
def Obligations.OnlyEndedStatesHaveNoStep : Prop :=
  ∀ s : State,
    (∀ r, step s = .fault (.stuckFaulted r) ↔ s.fault = some r) ∧
    (step s = .fault .stuckHalted ↔ s.fault = none ∧ s.halted = true)

/-- R200, R203: a step that raises a fault leaves the state as before the step with the fault recorded, and that
state has no step (decision D20 of the spec). -/
def Obligations.FaultsArePreciseAndFinal : Prop :=
  ∀ (s : State) (r : FaultReason), step s = .fault (.raised r) →
    s.fault = none ∧ s.halted = false ∧ advance s = { s with fault := some r } ∧
    step (advance s) = .fault (.stuckFaulted r) ∧ advance (advance s) = advance s

/-- Every state answers a next state or a named fault: no instruction is left without a meaning. -/
def Obligations.StepNeverRefuses : Prop :=
  ∀ (s : State) (q : Refusal), step s ≠ .refused q

/-- R202: executing an instruction can raise only two faults, FAULT_IO_PORT_RANGE from IN and OUT and
FAULT_DATA_REGION from the instructions that make a data access, with the faulting port or address
(decisions D4, D5, D18 of the spec). -/
def Obligations.ExecutionFaultsAsTabled : Prop :=
  ∀ (i : Instr) (s : State) (f : Fault), exec i s = .fault f →
    (∃ p po, f = .raised (.ioPortRange p) ∧ 0x00FF < p.toNat ∧ p = portNumber po s ∧
      ((∃ rd, i = .inPort rd po) ∨ ∃ rs, i = .outPort po rs)) ∨
    (∃ a, f = .raised (.dataRegion a) ∧ (a.toNat = 0xEFFF ∨ 0xF100 ≤ a.toNat) ∧
      ((∃ m, (∃ rd, i = .mov rd (.mem m) ∨ i = .load rd m ∨ i = .add rd (.mem m) ∨ i = .sub rd (.mem m) ∨
          i = .and rd (.mem m) ∨ i = .or rd (.mem m) ∨ i = .xor rd (.mem m) ∨ i = .cmp rd (.mem m)) ∧
          a = effectiveAddress m s) ∨
        (∃ m rs, i = .store m rs ∧ a = effectiveAddress m s) ∨
        (((∃ rs, i = .push rs) ∨ ∃ m, i = .call m) ∧ a = s.sp - 2) ∨
        (((∃ rd, i = .pop rd) ∨ i = .ret) ∧ a = s.sp)))

/-! ## Invariants and whole-machine rules -/

/-- Every step keeps the machine's invariant: memory stays in canonical form with plain addresses only, and every event
of the trace is a transaction with the I/O window (R37, R54, R66, R67; the canonical form is the model's own, log
entry 2). -/
def Obligations.StepKeepsTheInvariant : Prop :=
  ∀ s t : State, Inv s → step s = .next t → Inv t

/-- The invariant holds after reset, for every choice of everything the spec leaves open (R233, R234, R236, R7) with a
well-formed initial memory, and for the model's own reset state (log entries 1 and 2). -/
def Obligations.ResetHasTheInvariant : Prop :=
  (∀ p : ResetChoice, p.memInit.wf → Inv (State.resetWith p)) ∧ Inv State.reset

/-- R203, R131: a step that answers started with no fault recorded and not halted and records no fault; an instruction
leaves `fault` as it was, and `halted` too unless it is HALT, which sets it (decisions D19, D20 of the spec). -/
def Obligations.StepKeepsRunBookkeeping : Prop :=
  (∀ s t : State, step s = .next t → s.fault = none ∧ s.halted = false ∧ t.fault = none) ∧
  (∀ (i : Instr) (s t : State), exec i s = .next t → t.fault = s.fault ∧
    (i ≠ .halt → t.halted = s.halted) ∧ (i = .halt → t.halted = true))

/-- R63, R70 (c): one step makes at most one store to plain memory or one transaction with the I/O window, never both.
With `a` the address the fetched instruction stores to, computed as its meaning computes it at the state whose pc is past
the instruction: where there is none no byte changes and at most one event is added to the trace; where it is in the
window no byte changes and one write to `a` is added; where it is plain no byte but those at `a` and `a + 1` changes and
the trace stays; it is never anywhere else (decisions D5, D7, D15, D17, D24 of the spec). -/
def Obligations.OneDataAccessPerStep : Prop :=
  ∀ s t : State, step s = .next t → ∃ i next, fetchInstr s = .ok (i, next) ∧
    (storeAddress i (s.setPc next) = none → (∀ x, t.byte x = s.byte x) ∧
      (t.ioTrace = s.ioTrace ∨ ∃ e, t.ioTrace = s.ioTrace ++ [e] ∧ eventInWindow e = true)) ∧
    ∀ a, storeAddress i (s.setPc next) = some a → Accessible a ∧
      (InWindow a → (∀ x, t.byte x = s.byte x) ∧ ∃ v, t.ioTrace = s.ioTrace ++ [.write a v]) ∧
      (InPlain a → (∀ x, x ≠ a → x ≠ a + 1 → t.byte x = s.byte x) ∧ t.ioTrace = s.ioTrace)

/-- R22: every general register but the one the RD field of MOV, LOAD, ADD, SUB, AND, OR, XOR, SHL, SHR, POP and IN
names is unchanged by every instruction; the other fourteen write none (decisions D7, D8 of the spec). -/
def Obligations.OnlyTheDestinationRegisterChanges : Prop :=
  ∀ (i : Instr) (s t : State) (q : Reg), exec i s = .next t → destination i ≠ some q → t.reg q = s.reg q

/-- R29: the sixteen instructions of the last row write no flag (decision D11); AND, OR and XOR keep C (D13) and clear
V; SHL and SHR clear V (D14); LOAD keeps C and V, and Z and N too unless LOAD_UPDATES_ZN is true (D12), as a
LOAD with that argument false keeps all four. -/
def Obligations.FlagsChangeOnlyAsTabled : Prop :=
  ∀ (i : Instr) (s t : State), exec i s = .next t →
    (writesNoFlag i = true → t.flags = s.flags) ∧
    (∀ rd o, i = .and rd o ∨ i = .or rd o ∨ i = .xor rd o → t.flags.c = s.flags.c ∧ t.flags.v = false) ∧
    (∀ rd, i = .shl rd ∨ i = .shr rd → t.flags.v = false) ∧
    (∀ rd m, i = .load rd m → t.flags.c = s.flags.c ∧ t.flags.v = s.flags.v ∧
      (Config.loadUpdatesZN = true ∨ t.flags = s.flags)) ∧
    (∀ rd m u, loadWith false rd m s = .next u → u.flags = s.flags)

/-- R25: an instruction that is no jump, CALL or RET leaves the pc at the next sequential instruction, where the fetch
has put it; HALT too. -/
def Obligations.OnlyControlTransfersWritePc : Prop :=
  ∀ (i : Instr) (s t : State), exec i s = .next t → transfersControl i = false → t.pc = s.pc

/-- R32: every instruction but PUSH, POP, CALL and RET neither reads nor writes SP: with any other SP it does the same
to everything else, and it leaves SP as it was. -/
def Obligations.OnlyTheStackInstructionsUseSp : Prop :=
  ∀ (i : Instr) (s : State) (x : Word), usesStack i = false →
    exec i { s with sp := x } = withSp x (exec i s) ∧ ∀ t, exec i s = .next t → t.sp = s.sp

/-- R30: no instruction reads V: two states that differ in V alone have outcomes that differ in V alone. -/
def Obligations.NoInstructionReadsOverflow : Prop :=
  ∀ (i : Instr) (s : State) (b : Bool), forgetV (exec i { s with flags := { s.flags with v := b } }) = forgetV (exec i s)

/-- R63: every instruction but STORE, PUSH and CALL leaves every byte of plain memory as it was: an ALU instruction with
a memory operand, LOAD, POP, RET, IN and OUT among them. -/
def Obligations.OtherInstructionsKeepMemory : Prop :=
  ∀ (i : Instr) (s t : State), exec i s = .next t → storeAddress i s = none → ∀ x, t.byte x = s.byte x

/-- R62, R63: STORE, PUSH and CALL change no byte outside the two at the address their meaning stores to, the effective
address of STORE's operand (with its base in RD, decision D7) or SP - 2, and no byte at all where that address is in
the I/O window (decision D5). -/
def Obligations.StoresTouchOnlyTheirWord : Prop :=
  ∀ (i : Instr) (s t : State) (a : Word), exec i s = .next t → storeAddress i s = some a →
    (∀ x, x ≠ a → x ≠ a + 1 → t.byte x = s.byte x) ∧ (InWindow a → ∀ x, t.byte x = s.byte x)

/-! ## State, memory and the I/O window -/

/-- R27: FLAGS as an 8-bit value is Z + 2 N + 4 C + 8 V, so its bits 7:4 are 0 (R28). -/
def Obligations.FlagsByteLayout : Prop :=
  ∀ f : Flags, f.toByte.toNat = f.z.toNat + 2 * f.n.toNat + 4 * f.c.toNat + 8 * f.v.toNat

/-- R50: the word at a plain address has bits 7:0 in the byte at it and bits 15:8 in the byte after it, for a read and
for a write; a write leaves every other byte and everything else alone, and a word read back is the word written. -/
def Obligations.WordsAreLittleEndian : Prop :=
  ∀ (a v : Word) (s : State), InPlain a →
    (∃ u, memRead a s = .ok (u, s) ∧ u.toNat % 256 = (s.byte a).toNat ∧ u.toNat / 256 = (s.byte (a + 1)).toNat) ∧
    ∃ t, memWrite a v s = .ok t ∧ (t.byte a).toNat = v.toNat % 256 ∧ (t.byte (a + 1)).toNat = v.toNat / 256 ∧
      (∀ x, x ≠ a → x ≠ a + 1 → t.byte x = s.byte x) ∧ { t with mem := s.mem } = s ∧ memRead a t = .ok (v, t)

/-- R59, R61, R62: data accesses fault exactly at 0xEFFF and from 0xF100 on, with their address; every other address
answers, in plain memory at odd addresses too (decisions D3, D4, D5 of the spec). -/
def Obligations.DataAccessFaultsExactly : Prop :=
  ∀ (a v : Word) (s : State) (r : FaultReason),
    (memRead a s = .error r ↔ (a.toNat = 0xEFFF ∨ 0xF100 ≤ a.toNat) ∧ r = .dataRegion a) ∧
    (memWrite a v s = .error r ↔ (a.toNat = 0xEFFF ∨ 0xF100 ≤ a.toNat) ∧ r = .dataRegion a) ∧
    (fetch16 a s = .error r ↔ 0xEFFF ≤ a.toNat ∧ r = .fetchRegion a)

/-- R66, R67: a data access in the window is one transaction addressed by its address alone: a read delivers what the
oracle IoRead answers to the history and the address and logs that value, a write logs the word it carries, and nothing
else changes (decisions D5, D6 of the spec; the oracle is a free value, log entry 4). -/
def Obligations.WindowAccessIsOneTransaction : Prop :=
  ∀ (a v : Word) (s : State), InWindow a →
    (∃ value, value = Config.ioRead s.ioTrace a ∧
      memRead a s = .ok (value, { s with ioTrace := s.ioTrace ++ [.read a value] })) ∧
    memWrite a v s = .ok { s with ioTrace := s.ioTrace ++ [.write a v] }

/-- R73: a word stored in plain memory is what the next fetch at that address reads, with no other action. -/
def Obligations.StoreIsSeenByTheNextFetch : Prop :=
  ∀ (dst : MemOperand) (rs : Reg) (s t : State), exec (.store dst rs) s = .next t →
    InPlain (effectiveAddress dst s) → fetch16 (effectiveAddress dst s) t = .ok (s.reg rs)

/-- R65, R68: a STORE or an OUT to 0xF000 prints bits 7:0 of its register, and one to another window address prints
nothing (decisions D6, D18 of the spec). -/
def Obligations.OutputRegisterPrintsTheLowByte : Prop :=
  ∀ (rs : Reg) (port : PortOperand) (m : MemOperand) (s t : State) (p : Word), p.toNat ≤ 0x00FF →
    (p = portNumber port s ∧ exec (.outPort port rs) s = .next t) ∨
      (0xF000 + p = effectiveAddress m s ∧ exec (.store m rs) s = .next t) →
    printed t.ioTrace = printed s.ioTrace ++ (if p = 0 then [(s.reg rs).setWidth 8] else [])

/-- R231, R232, R235: after reset the pc, SP and the bookkeeping are as stated, whatever is chosen for everything the
spec leaves open; with the defaults the pc is 0x8000 and SP 0x7FFF, and the first pushed word occupies 0x7FFD and
0x7FFE (decision D23 of the spec). -/
def Obligations.ResetValues : Prop :=
  (∀ p : ResetChoice, (State.resetWith p).pc = p.resetPc ∧ (State.resetWith p).sp = p.resetSp ∧
    (State.resetWith p).halted = false ∧ (State.resetWith p).fault = none ∧ (State.resetWith p).ioTrace = [] ∧
    (State.resetWith p).regs = p.regs ∧ (State.resetWith p).flags = p.flags ∧ (State.resetWith p).mem = p.memInit) ∧
  State.reset.pc = 0x8000 ∧ State.reset.sp = 0x7FFF ∧ pushAddress State.reset = 0x7FFD

/-! ## Operands -/

/-- R99: the effective address of each of the four memory modes, as a number: the extension word, the base register, and
base or pc plus the signed offset modulo 65536 (the wrap is decision D2 of the spec). -/
def Obligations.EffectiveAddressOfEachMode : Prop :=
  ∀ (s : State) (b : Reg) (ext : Word),
    effectiveAddress (.dir ext) s = ext ∧ effectiveAddress (.ind b) s = s.reg b ∧
    ((effectiveAddress (.off b ext) s).toNat : Int) = ((s.reg b).toNat + ext.toInt) % 65536 ∧
    ((effectiveAddress (.rel ext) s).toNat : Int) = (s.pc.toNat + ext.toInt) % 65536

/-- R201 fault 8 for every instruction with a memory operand: an operand at 0xEFFF or from 0xF100 on faults with its
address; STORE, PUSH, CALL, POP and RET alike at theirs (decisions D4, D5 of the spec). -/
def Obligations.InaccessibleOperandsFault : Prop :=
  ∀ (m : MemOperand) (rd : Reg) (s : State),
    (¬ Accessible (effectiveAddress m s) →
      ∀ i ∈ [Instr.mov rd (.mem m), .load rd m, .store m rd, .add rd (.mem m), .sub rd (.mem m), .and rd (.mem m),
        .or rd (.mem m), .xor rd (.mem m), .cmp rd (.mem m)],
      exec i s = .fault (.raised (.dataRegion (effectiveAddress m s)))) ∧
    (¬ Accessible (s.sp - 2) → ∀ i ∈ [Instr.push rd, .call m], exec i s = .fault (.raised (.dataRegion (s.sp - 2)))) ∧
    (¬ Accessible s.sp → ∀ i ∈ [Instr.pop rd, .ret], exec i s = .fault (.raised (.dataRegion s.sp)))

/-! ## NOP, HALT, MOV, LOAD, STORE -/

/-- R130, R131: NOP changes nothing (the fetch has moved the pc), HALT sets `halted` and nothing else; both complete in
every state (that the stop is permanent is decision D19 of the spec). -/
def Obligations.NopAndHaltComplete : Prop :=
  ∀ s : State, exec .nop s = .next s ∧ exec .halt s = .next { s with halted := true }

/-- R140: MOV copies its operand, in all six modes, and writes no flag (decision D11 of the spec). -/
def Obligations.MovCopiesItsOperand : Prop :=
  ∀ (rd : Reg) (o : Operand) (s : State), OperandReadable o s →
    exec (.mov rd o) s = .next { afterOperand o s with regs := s.regs.set rd (operandValue o s) }

/-- R141: LOAD reads the word at the effective address into RD; Z and N are written from it exactly when the argument
LOAD_UPDATES_ZN is true, C and V never; for each value of the argument, and for the machine's own (decision D12 of the
spec, log entry 5). -/
def Obligations.LoadReadsMemory : Prop :=
  ∀ (rd : Reg) (m : MemOperand) (s : State) (v : Word), Accessible (effectiveAddress m s) →
    v = wordAt (effectiveAddress m s) s →
    (∀ updatesZN, loadWith updatesZN rd m s = .next (afterLoad updatesZN rd m v s)) ∧
    exec (.load rd m) s = .next (afterLoad Config.loadUpdatesZN rd m v s)

/-- R142: STORE writes R[RS] at the effective address whose base is the register of the RD field (decision D7 of the
spec), as two bytes of plain memory or as one write transaction. -/
def Obligations.StoreWritesMemory : Prop :=
  ∀ (dst : MemOperand) (rs : Reg) (s : State), Accessible (effectiveAddress dst s) →
    ∃ t, exec (.store dst rs) s = .next t ∧ WrittenAt (effectiveAddress dst s) (s.reg rs) s t

/-! ## Arithmetic, logic, compare and shifts -/

/-- R154: ADD in every mode: RD gets a + b modulo 65536, Z and N come from the result, C is the carry out of the 17-bit
sum, V is set when operands of one sign give the other; a memory operand with no meaning faults. -/
def Obligations.AddResultAndFlags : Prop :=
  ∀ (rd : Reg) (o : Operand) (s : State) (a b r : Word), OperandReadable o s → a = s.reg rd → b = operandValue o s →
    r.toNat = (a.toNat + b.toNat) % 65536 →
    exec (.add rd o) s = .next { afterOperand o s with
      regs := s.regs.set rd r
      flags := { z := decide (r.toNat = 0), n := r.msb, c := decide (65535 < a.toNat + b.toNat),
                 v := decide (a.msb = b.msb ∧ r.msb ≠ a.msb) } }

/-- R155, R159: SUB in every mode: RD gets a - b modulo 65536, C is set when no borrow is required, V when operands of
different signs give a result whose sign differs from the first; CMP sets the same flags and writes no register. -/
def Obligations.SubAndCmpResultAndFlags : Prop :=
  ∀ (rd : Reg) (o : Operand) (s : State) (a b r : Word), OperandReadable o s → a = s.reg rd → b = operandValue o s →
    (r.toNat : Int) = ((a.toNat : Int) - b.toNat) % 65536 →
    exec (.sub rd o) s = .next { afterOperand o s with
      regs := s.regs.set rd r
      flags := { z := decide (r.toNat = 0), n := r.msb, c := decide (b.toNat ≤ a.toNat),
                 v := decide (a.msb ≠ b.msb ∧ r.msb ≠ a.msb) } } ∧
    exec (.cmp rd o) s = .next { afterOperand o s with
      flags := { z := decide (r.toNat = 0), n := r.msb, c := decide (b.toNat ≤ a.toNat),
                 v := decide (a.msb ≠ b.msb ∧ r.msb ≠ a.msb) } }

/-- R153: V after SUB and CMP is set exactly when the exact difference of the signed values does not fit in 16 signed
bits (what "overflows" means is general knowledge, 93_implementation_defined.md G2), and V after ADD exactly when the
exact sum does not fit, which the spec's sign rule for ADD amounts to. -/
def Obligations.OverflowIsSignedRange : Prop :=
  ∀ (rd : Reg) (o : Operand) (b : Word) (s t : State), b = operandValue o s →
    (exec (.add rd o) s = .next t →
      t.flags.v = decide ((s.reg rd).toInt + b.toInt < -32768 ∨ 32767 < (s.reg rd).toInt + b.toInt)) ∧
    (exec (.sub rd o) s = .next t ∨ exec (.cmp rd o) s = .next t →
      t.flags.v = decide ((s.reg rd).toInt - b.toInt < -32768 ∨ 32767 < (s.reg rd).toInt - b.toInt))

/-- R156, R157, R158: AND, OR and XOR in every mode, bit by bit: Z and N from the result, V cleared, C unchanged
(decision D13 of the spec). -/
def Obligations.LogicResultAndFlags : Prop :=
  ∀ (rd : Reg) (o : Operand) (s : State) (a b r : Word), OperandReadable o s → a = s.reg rd → b = operandValue o s →
    ((∀ k < 16, r.getLsbD k = (a.getLsbD k && b.getLsbD k)) →
      exec (.and rd o) s = .next { afterOperand o s with
        regs := s.regs.set rd r
        flags := { z := decide (r.toNat = 0), n := r.msb, c := s.flags.c, v := false } }) ∧
    ((∀ k < 16, r.getLsbD k = (a.getLsbD k || b.getLsbD k)) →
      exec (.or rd o) s = .next { afterOperand o s with
        regs := s.regs.set rd r
        flags := { z := decide (r.toNat = 0), n := r.msb, c := s.flags.c, v := false } }) ∧
    ((∀ k < 16, r.getLsbD k = (a.getLsbD k ^^ b.getLsbD k)) →
      exec (.xor rd o) s = .next { afterOperand o s with
        regs := s.regs.set rd r
        flags := { z := decide (r.toNat = 0), n := r.msb, c := s.flags.c, v := false } })

/-- R160, R161: SHL doubles modulo 65536 and SHR halves, by one bit position (decision D14 of the spec); C is the bit
shifted out, V is cleared, and both complete in every state. -/
def Obligations.ShiftResultAndFlags : Prop :=
  ∀ (rd : Reg) (s : State) (a r : Word), a = s.reg rd →
    (r.toNat = a.toNat * 2 % 65536 →
      exec (.shl rd) s = .next { s with
        regs := s.regs.set rd r
        flags := { z := decide (r.toNat = 0), n := r.msb, c := decide (32768 ≤ a.toNat), v := false } }) ∧
    (r.toNat = a.toNat / 2 →
      exec (.shr rd) s = .next { s with
        regs := s.regs.set rd r
        flags := { z := decide (r.toNat = 0), n := false, c := decide (a.toNat % 2 = 1), v := false } })

/-- R151: after each of the eight flag-writing instructions Z says that the 16-bit result is 0x0000 and N is its bit 15;
the result is what RD holds afterwards, and for CMP the discarded difference. -/
def Obligations.ZeroAndNegativeComeFromTheResult : Prop :=
  ∀ (rd : Reg) (o : Operand) (s t : State),
    (∀ i ∈ [Instr.add rd o, .sub rd o, .and rd o, .or rd o, .xor rd o, .shl rd, .shr rd], exec i s = .next t →
      t.flags.z = decide (t.reg rd = 0) ∧ t.flags.n = (t.reg rd).getLsbD 15) ∧
    (exec (.cmp rd o) s = .next t →
      t.flags.z = decide (s.reg rd - operandValue o s = 0) ∧ t.flags.n = (s.reg rd - operandValue o s).getLsbD 15)

/-- R159: after a CMP of a with b, JZ is taken when a = b, JNZ when a ≠ b, JC when a ≥ b unsigned, JNC when a < b
unsigned, and JN when bit 15 of a - b is set. -/
def Obligations.CompareThenBranch : Prop :=
  ∀ (rd : Reg) (o : Operand) (m : MemOperand) (s t : State) (a b : Word),
    exec (.cmp rd o) s = .next t → a = s.reg rd → b = operandValue o s →
    exec (.jz m) t = .next (if a = b then { t with pc := effectiveAddress m t } else t) ∧
    exec (.jnz m) t = .next (if a ≠ b then { t with pc := effectiveAddress m t } else t) ∧
    exec (.jc m) t = .next (if b.toNat ≤ a.toNat then { t with pc := effectiveAddress m t } else t) ∧
    exec (.jnc m) t = .next (if a.toNat < b.toNat then { t with pc := effectiveAddress m t } else t) ∧
    exec (.jn m) t = .next (if (a - b).msb = true then { t with pc := effectiveAddress m t } else t)

/-! ## Jumps -/

/-- R171: JMP completes in every state and every mode, with the effective address itself as the new pc and nothing else
changed (which modes a jump admits is decisions D8 and D16 of the spec). -/
def Obligations.JumpGoesToTheEffectiveAddress : Prop :=
  ∀ (m : MemOperand) (s : State), exec (.jmp m) s = .next { s with pc := effectiveAddress m s }

/-- R172 to R176: each conditional jump completes in every state: it goes to the effective address when its flag has its
value, else it changes nothing. -/
def Obligations.ConditionalJumpsTestTheirFlag : Prop :=
  ∀ (m : MemOperand) (s : State),
    exec (.jz m) s = .next (if s.flags.z = true then { s with pc := effectiveAddress m s } else s) ∧
    exec (.jnz m) s = .next (if s.flags.z = false then { s with pc := effectiveAddress m s } else s) ∧
    exec (.jc m) s = .next (if s.flags.c = true then { s with pc := effectiveAddress m s } else s) ∧
    exec (.jnc m) s = .next (if s.flags.c = false then { s with pc := effectiveAddress m s } else s) ∧
    exec (.jn m) s = .next (if s.flags.n = true then { s with pc := effectiveAddress m s } else s)

/-- R105: the extension word is fetched and the pc moved past it whether or not a conditional jump is taken: a jump that
is not taken continues at the address after its extension word, in the one mode without one at the address after its
base word, and changes nothing else. -/
def Obligations.NotTakenJumpSkipsItsExtensionWord : Prop :=
  ∀ (s : State) (bs : List Byte) (m : MemOperand) (i : Instr),
    Running s → BytesAt s s.pc bs → decode bs = .ok (i, []) →
    (i = .jz m ∧ s.flags.z = false) ∨ (i = .jnz m ∧ s.flags.z = true) ∨ (i = .jc m ∧ s.flags.c = false) ∨
      (i = .jnc m ∧ s.flags.c = true) ∨ (i = .jn m ∧ s.flags.n = false) →
    step s = .next { s with pc := s.pc + (if (memExt m).isSome = true then 4 else 2) }

/-- R98: the offset of mode 101, in every instruction with a memory operand, counts from the address of the base word
plus 4; an offset of 0 names the next instruction and an offset of 0xFFFC the instruction itself, and JMP goes there. That the sum wraps modulo 65536 is decision D2 of the spec. -/
def Obligations.RelativeOffsetCountsFromTheNextInstruction : Prop :=
  ∀ (s : State) (bs : List Byte) (i : Instr) (e t : Word), Running s → BytesAt s s.pc bs → decode bs = .ok (i, []) →
    memoryOperand i = some (.rel e) → t = effectiveAddress (.rel e) { s with pc := s.pc + 4 } →
    step s = exec i { s with pc := s.pc + 4 } ∧ (t.toNat : Int) = (s.pc.toNat + 4 + e.toInt) % 65536 ∧
      (e = 0 → t = s.pc + 4) ∧ (e = 0xFFFC → t = s.pc) ∧ (i = .jmp (.rel e) → step s = .next { s with pc := t })

/-! ## Subroutines and the stack -/

/-- R180: CALL in every mode pushes the address of the next sequential instruction, which the pc holds, and jumps to the
effective address (decisions D7, D16, D17 of the spec). -/
def Obligations.CallPushesTheReturnAddress : Prop :=
  ∀ (m : MemOperand) (s : State), Accessible (s.sp - 2) →
    ∃ u, WrittenAt (s.sp - 2) s.pc s u ∧ exec (.call m) s = .next { u with sp := s.sp - 2, pc := effectiveAddress m s }

/-- R181: RET pops the word at SP into the pc and moves SP up by 2. -/
def Obligations.RetPopsThePc : Prop :=
  ∀ s : State, Accessible s.sp →
    exec .ret s = .next { afterRead s.sp s with sp := s.sp + 2, pc := wordAt s.sp s }

/-- R182: PUSH moves SP down by 2 and writes R[RS] there (that the RS field names the register is decision D7). -/
def Obligations.PushWritesBelowTheStack : Prop :=
  ∀ (rs : Reg) (s : State), Accessible (s.sp - 2) →
    ∃ u, WrittenAt (s.sp - 2) (s.reg rs) s u ∧ exec (.push rs) s = .next { u with sp := s.sp - 2 }

/-- R183: POP reads the word at SP into RD and moves SP up by 2; no flag (decision D11 of the spec). -/
def Obligations.PopReadsTheTopOfTheStack : Prop :=
  ∀ (rd : Reg) (s : State), Accessible s.sp →
    exec (.pop rd) s = .next { afterRead s.sp s with sp := s.sp + 2, regs := s.regs.set rd (wordAt s.sp s) }

/-- R31, R182, R183: in plain memory a POP after a PUSH delivers the pushed word and restores SP. -/
def Obligations.PopAfterPushRestores : Prop :=
  ∀ (rs rd : Reg) (s : State), InPlain (s.sp - 2) →
    ∃ t u, exec (.push rs) s = .next t ∧ exec (.pop rd) t = .next u ∧ u.reg rd = s.reg rs ∧ u.sp = s.sp ∧
      (∀ q, q ≠ rd → u.reg q = s.reg q) ∧ u.flags = s.flags ∧ u.pc = s.pc ∧ u.ioTrace = s.ioTrace ∧
      ∀ x, x ≠ s.sp - 2 → x ≠ s.sp - 1 → u.byte x = s.byte x

/-- R180, R181, R184: in plain memory a RET after a CALL comes back to the instruction after the CALL with SP, registers
and flags as they were, and every byte but the two of the stacked word (decision D17 of the spec). -/
def Obligations.ReturnAfterCallComesBack : Prop :=
  ∀ (m : MemOperand) (s : State), InPlain (s.sp - 2) →
    ∃ t u, exec (.call m) s = .next t ∧ t.pc = effectiveAddress m s ∧
      (∀ pc', exec .ret { t with pc := pc' } = .next u) ∧ { u with mem := s.mem } = s ∧
      ∀ x, x ≠ s.sp - 2 → x ≠ s.sp - 1 → u.byte x = s.byte x

/-! ## Port I/O -/

/-- R191: IN from a port 0 to 0xFF delivers the environment's 16-bit answer of the window register 0xF000 + p into RD
and logs the read; no flag (decisions D6, D11, D18 of the spec). -/
def Obligations.InReadsThePort : Prop :=
  ∀ (rd : Reg) (port : PortOperand) (s : State) (p a : Word), p = portNumber port s → p.toNat ≤ 0x00FF → a = 0xF000 + p →
    exec (.inPort rd port) s = .next { s with
      regs := s.regs.set rd (ioAnswer a s)
      ioTrace := s.ioTrace ++ [.read a (ioAnswer a s)] }

/-- R192: OUT to a port 0 to 0xFF hands R[RS] to the window register 0xF000 + p and changes nothing but the trace
(decisions D6, D7, D18 of the spec). -/
def Obligations.OutWritesThePort : Prop :=
  ∀ (rs : Reg) (port : PortOperand) (s : State) (p : Word), p = portNumber port s → p.toNat ≤ 0x00FF →
    exec (.outPort port rs) s = .next { s with ioTrace := s.ioTrace ++ [.write (0xF000 + p) (s.reg rs)] }

/-- R190: a port number above 0xFF names no port: IN and OUT fault with it in both forms, with no transaction
(decision D18 of the spec). -/
def Obligations.PortOutOfRangeFaults : Prop :=
  ∀ (r : Reg) (port : PortOperand) (s : State), 0x00FF < (portNumber port s).toNat →
    exec (.inPort r port) s = .fault (.raised (.ioPortRange (portNumber port s))) ∧
    exec (.outPort port r) s = .fault (.raised (.ioPortRange (portNumber port s)))

/-- R190: IN from port p is the transaction of a LOAD from 0xF000 + p, and OUT to port p that of a STORE there (decision
D18 of the spec; LOAD with LOAD_UPDATES_ZN at its default, since only LOAD may write Z and N). -/
def Obligations.PortIsTheWindowRegister : Prop :=
  ∀ (r : Reg) (port : PortOperand) (m : MemOperand) (s : State), (portNumber port s).toNat ≤ 0x00FF →
    effectiveAddress m s = 0xF000 + portNumber port s →
    exec (.inPort r port) s = loadWith Config.loadUpdatesZNDefault r m s ∧
    exec (.outPort port r) s = exec (.store m r) s
end

