-- ==== Sys2Proof/Laws/Memory.lean ====
section
/-! SUPPORT. Reading after writing one byte, and the canonical form of memory kept by every memory operation. -/

namespace Sys2Proof.Machine

@[simp] theorem Memory.read_nil (a : Nat) : Memory.read [] a = Config.unlistedByte := rfl

theorem Memory.read_cons (k : Nat) (b : Byte) (rest : Memory) (a : Nat) :
    Memory.read ((k, b) :: rest) a = if k = a then b else Memory.read rest a := rfl

theorem Memory.read_insert (m : Memory) (a : Nat) (b : Byte) (x : Nat) :
    (m.insert a b).read x = if x = a then b else m.read x := by
  induction m with
  | nil => simp only [Memory.insert, Memory.read_cons, eq_comm]
  | cons c rest ih =>
    obtain ⟨k, c⟩ := c
    simp only [Memory.insert]
    split
    · simp only [Memory.read_cons, eq_comm]
    · split
      · next h => subst h; simp only [Memory.read_cons, eq_comm]; split <;> rfl
      · next h => simp only [Memory.read_cons, ih]; split <;> split <;> simp_all

theorem Memory.read_erase (m : Memory) (a x : Nat) :
    (m.erase a).read x = if x = a then Config.unlistedByte else m.read x := by
  induction m with
  | nil => simp [Memory.erase]
  | cons c rest ih =>
    obtain ⟨k, c⟩ := c
    simp only [Memory.erase] at ih
    by_cases h : k = a
    · simp only [Memory.erase, List.filter_cons, h, bne_self_eq_false, Bool.false_eq_true, if_false, ih,
        Memory.read_cons]
      split <;> simp_all [eq_comm]
    · simp only [Memory.erase, List.filter_cons, bne_iff_ne, ne_eq, h, not_false_eq_true, if_true,
        Memory.read_cons, ih]
      split <;> split <;> simp_all

/-- A read after a write: the byte written at its address, every other byte as before. -/
theorem Memory.read_write (m : Memory) (a : Nat) (b : Byte) (x : Nat) :
    (m.write a b).read x = if x = a then b else m.read x := by
  unfold Memory.write
  split
  · next h => rw [Memory.read_erase, h]
  · exact Memory.read_insert m a b x

theorem Memory.mem_insert {m : Memory} {a : Nat} {b : Byte} {c : Host.Cell} (h : c ∈ m.insert a b) :
    c = (a, b) ∨ c ∈ m := by
  induction m with
  | nil => simp_all [Memory.insert]
  | cons d rest ih =>
    obtain ⟨k, d⟩ := d
    simp only [Memory.insert] at h
    split at h
    · simpa using h
    · split at h
      · rcases List.mem_cons.1 h with h | h
        · exact .inl h
        · exact .inr (List.mem_cons_of_mem _ h)
      · rcases List.mem_cons.1 h with h | h
        · exact .inr (by simp [h])
        · exact (ih h).imp_right (List.mem_cons_of_mem _)

theorem Memory.sorted_insert {m : Memory} (a : Nat) (b : Byte) (h : m.Pairwise (fun c d => c.1 < d.1)) :
    (m.insert a b).Pairwise (fun c d => c.1 < d.1) := by
  induction m with
  | nil => simp [Memory.insert]
  | cons c rest ih =>
    obtain ⟨k, c⟩ := c
    obtain ⟨hk, hr⟩ := List.pairwise_cons.1 h
    simp only [Memory.insert]
    split
    · next hlt =>
      refine List.pairwise_cons.2 ⟨fun d hd => ?_, h⟩
      rcases List.mem_cons.1 hd with rfl | hd
      · exact hlt
      · exact lt_trans hlt (hk d hd)
    · split
      · next heq => exact List.pairwise_cons.2 ⟨fun d hd => heq ▸ hk d hd, hr⟩
      · next hlt hne =>
        refine List.pairwise_cons.2 ⟨fun d hd => ?_, ih hr⟩
        rcases Memory.mem_insert hd with rfl | hd
        · exact lt_of_le_of_ne (not_lt.1 hlt) (Ne.symm hne)
        · exact hk d hd

theorem Memory.wf_nil : Memory.wf [] := by simp [Memory.wf]

/-- A write to an address of plain memory keeps the canonical form. -/
theorem Memory.wf_write {m : Memory} {a : Nat} (b : Byte) (hm : m.wf) (ha : a < 0xF000) : (m.write a b).wf := by
  unfold Memory.write
  split
  · exact ⟨hm.1.sublist List.filter_sublist, fun c hc => hm.2 c (List.mem_filter.1 hc).1⟩
  · next hb =>
    refine ⟨Memory.sorted_insert a b hm.1, fun c hc => ?_⟩
    rcases Memory.mem_insert hc with rfl | hc
    · exact ⟨ha, hb⟩
    · exact hm.2 c hc

theorem plain_iff (a : Word) : plain a = true ↔ a.toNat < 0xF000 := by
  simp only [plain, region]
  split_ifs <;> simp <;> omega

/-- A word written to plain memory keeps the canonical form. -/
theorem Memory.wf_writeWord {m : Memory} {a : Word} (v : Word) (hm : m.wf) (ha : plainWord a = true) :
    (m.writeWord a v).wf := by
  simp only [plainWord, Bool.and_eq_true, plain_iff] at ha
  exact Memory.wf_write _ (Memory.wf_write _ hm ha.1) ha.2

/-- Loading from outside keeps the canonical form. -/
theorem Memory.wf_load {m : Memory} (a : Word) (bs : List Byte) (hm : m.wf) : (m.load a bs).wf := by
  induction bs generalizing m a with
  | nil => exact hm
  | cons b bs ih =>
    refine ih _ ?_
    split
    · next h => exact Memory.wf_write b hm ((plain_iff a).1 h)
    · exact hm

/-- The two bytes of a word are at different addresses. -/
theorem succ_toNat_ne (a : Word) : (a + 1).toNat ≠ a.toNat := by bv_omega

/-- The bytes of memory after a word is written. -/
theorem Memory.read_writeWord (m : Memory) (a v : Word) (x : Nat) :
    (m.writeWord a v).read x =
      if x = (a + 1).toNat then highByte v else if x = a.toNat then lowByte v else m.read x := by
  simp only [Memory.writeWord, Memory.read_write]

theorem wordOfBytes_toNat (lo hi : Byte) : (wordOfBytes lo hi).toNat = hi.toNat * 256 + lo.toNat := by
  simp only [wordOfBytes, BitVec.toNat_ofNat]
  omega

theorem lowByte_toNat (w : Word) : (lowByte w).toNat = w.toNat % 256 := by
  simp [lowByte]

theorem highByte_toNat (w : Word) : (highByte w).toNat = w.toNat / 256 := by
  simp only [highByte, BitVec.extractLsb'_toNat, Nat.shiftRight_eq_div_pow]
  omega

/-- A word is put together from its two bytes. -/
@[simp] theorem wordOfBytes_low_high (w : Word) : wordOfBytes (lowByte w) (highByte w) = w := by
  apply BitVec.eq_of_toNat_eq
  rw [wordOfBytes_toNat, lowByte_toNat, highByte_toNat]
  omega

@[simp] theorem lowByte_wordOfBytes (lo hi : Byte) : lowByte (wordOfBytes lo hi) = lo := by
  apply BitVec.eq_of_toNat_eq
  rw [lowByte_toNat, wordOfBytes_toNat]
  omega

@[simp] theorem highByte_wordOfBytes (lo hi : Byte) : highByte (wordOfBytes lo hi) = hi := by
  apply BitVec.eq_of_toNat_eq
  rw [highByte_toNat, wordOfBytes_toNat]
  omega

/-- A word read back after it is written. -/
theorem Memory.readWord_writeWord (m : Memory) (a v : Word) : (m.writeWord a v).readWord a = v := by
  simp only [Memory.readWord, Memory.read_writeWord, if_true, if_neg (succ_toNat_ne a).symm, wordOfBytes_low_high]

end Sys2Proof.Machine
end

