-- ==== Sys2Proof/Laws/Decode.lean ====
section
/-! SUPPORT. Fields, registers and operands read back from what the encoder writes. -/

namespace Sys2Proof

/-- The fields of a word put together from fields are those fields. -/
@[simp] theorem fieldsOf_wordOfFields (f : Fields) : fieldsOf (wordOfFields f) = f := by
  obtain ⟨op, mode, rd, rs, un⟩ := f
  have h1 := op.isLt; have h2 := mode.isLt; have h3 := rd.isLt; have h4 := rs.isLt; have h5 := un.isLt
  simp only [fieldsOf, wordOfFields, Fields.mk.injEq]
  refine ⟨?_, ?_, ?_, ?_, ?_⟩ <;> apply BitVec.eq_of_toNat_eq <;>
    simp only [BitVec.extractLsb'_toNat, BitVec.toNat_ofNat, Nat.shiftRight_eq_div_pow] <;> omega

/-- A word is put together from its fields. -/
@[simp] theorem wordOfFields_fieldsOf (w : Word) : wordOfFields (fieldsOf w) = w := by
  have h := w.isLt
  apply BitVec.eq_of_toNat_eq
  simp only [fieldsOf, wordOfFields, BitVec.extractLsb'_toNat, BitVec.toNat_ofNat, Nat.shiftRight_eq_div_pow]
  omega

@[simp] theorem regOfField_regField (r : Reg) : regOfField (regField r) = .ok r := by cases r <;> rfl

@[simp] theorem regOfField_zero : regOfField 0 = .ok .r0 := rfl

/-- A register field names a register exactly when it is at most 3. -/
theorem regOfField_ok_iff (b : BitVec 3) : (∃ r, regOfField b = .ok r) ↔ b.toNat ≤ 3 := by
  have h : ∀ b : BitVec 3, (regOfField b).toOption.isSome = decide (b.toNat ≤ 3) := by decide
  have hb := h b
  cases hr : regOfField b <;> simp_all [Except.toOption]

/-- A register field is the number of the register it names, or it names none. -/
theorem regOfField_cases (b : BitVec 3) :
    (∃ r, b = regField r ∧ regOfField b = .ok r) ∨ (3 < b.toNat ∧ regOfField b = .error .reservedRegister) := by
  have h : ∀ n : Fin 8, (∃ r, (BitVec.ofFin n : BitVec 3) = regField r ∧ regOfField (BitVec.ofFin n) = .ok r) ∨
      (3 < (BitVec.ofFin n : BitVec 3).toNat ∧ regOfField (BitVec.ofFin n) = .error .reservedRegister) := by
    intro n
    fin_cases n
    · exact .inl ⟨.r0, rfl, rfl⟩
    · exact .inl ⟨.r1, rfl, rfl⟩
    · exact .inl ⟨.r2, rfl, rfl⟩
    · exact .inl ⟨.r3, rfl, rfl⟩
    all_goals exact .inr ⟨by decide, rfl⟩
  exact h b.toFin

theorem regOfField_error {b : BitVec 3} {x : DecodeReason} (h : regOfField b = .error x) : x = .reservedRegister := by
  revert h
  unfold regOfField
  split <;> simp [eq_comm]

/-- The shape the decoder reads from a memory operand's own mode and base. -/
def shapeOf : MemOperand → MemShape
  | .dir _ => .dir
  | .ind b => .ind b
  | .off b _ => .off b
  | .rel _ => .rel

@[simp] theorem memShape_memMode (m : MemOperand) : memShape (memMode m) (memBase m) = .ok (shapeOf m) := by
  rcases m with _ | r | ⟨r, _⟩ | _ <;> first | rfl | (cases r <;> rfl)

/-- The shape the decoder reads from a value operand's own mode and register. -/
def valueShapeOf : Operand → ValueShape
  | .reg r => .reg r
  | .imm _ => .imm
  | .mem m => .mem (shapeOf m)

@[simp] theorem valueShape_valueMode (o : Operand) : valueShape (valueMode o) (valueReg o) = .ok (valueShapeOf o) := by
  rcases o with r | _ | m
  · cases r <;> rfl
  · rfl
  · rcases m with _ | r | ⟨r, _⟩ | _ <;> first | rfl | (cases r <;> rfl)

/-- The shape the decoder reads from a port operand's own mode and register. -/
def portShapeOf : PortOperand → PortShape
  | .reg r => .reg r
  | .imm _ => .imm

@[simp] theorem portShape_portMode (p : PortOperand) : portShape (portMode p) (portReg p) = .ok (portShapeOf p) := by
  rcases p with r | _
  · cases r <;> rfl
  · rfl

/-- The encoder never sets the UNUSED bits. -/
@[simp] theorem instrFields_unused (i : Instr) : (instrFields i).unused = 0 := by cases i <;> rfl

end Sys2Proof
end

