-- ==== Sys2Proof/Laws/State.lean ====
section
/-! SUPPORT. One lemma per field of State per named update, and the register file read after a write. -/

namespace Sys2Proof.Machine

@[simp] theorem Regs.get_set_same (g : Regs) (r : Reg) (v : Word) : (g.set r v).get r = v := by
  cases r <;> rfl

theorem Regs.get_set_other (g : Regs) {r q : Reg} (v : Word) (h : q ≠ r) : (g.set r v).get q = g.get q := by
  cases r <;> cases q <;> first | rfl | exact absurd rfl h

theorem Regs.get_set (g : Regs) (r q : Reg) (v : Word) : (g.set r v).get q = if q = r then v else g.get q := by
  split
  · next h => subst h; simp
  · next h => exact Regs.get_set_other g v h

/-! ### setReg -/

@[simp] theorem State.setReg_regs (s : State) (r : Reg) (v : Word) : (s.setReg r v).regs = s.regs.set r v := rfl
@[simp] theorem State.setReg_pc (s : State) (r : Reg) (v : Word) : (s.setReg r v).pc = s.pc := rfl
@[simp] theorem State.setReg_sp (s : State) (r : Reg) (v : Word) : (s.setReg r v).sp = s.sp := rfl
@[simp] theorem State.setReg_flags (s : State) (r : Reg) (v : Word) : (s.setReg r v).flags = s.flags := rfl
@[simp] theorem State.setReg_mem (s : State) (r : Reg) (v : Word) : (s.setReg r v).mem = s.mem := rfl
@[simp] theorem State.setReg_halted (s : State) (r : Reg) (v : Word) : (s.setReg r v).halted = s.halted := rfl
@[simp] theorem State.setReg_fault (s : State) (r : Reg) (v : Word) : (s.setReg r v).fault = s.fault := rfl
@[simp] theorem State.setReg_ioTrace (s : State) (r : Reg) (v : Word) : (s.setReg r v).ioTrace = s.ioTrace := rfl
@[simp] theorem State.setReg_reg_same (s : State) (r : Reg) (v : Word) : (s.setReg r v).reg r = v := by
  simp [State.reg]
theorem State.setReg_reg_other (s : State) {r q : Reg} (v : Word) (h : q ≠ r) : (s.setReg r v).reg q = s.reg q :=
  Regs.get_set_other s.regs v h
theorem State.setReg_reg (s : State) (r q : Reg) (v : Word) : (s.setReg r v).reg q = if q = r then v else s.reg q :=
  Regs.get_set s.regs r q v
@[simp] theorem State.setReg_byte (s : State) (r : Reg) (v : Word) (x : Word) : (s.setReg r v).byte x = s.byte x := rfl

/-! ### setPc -/

@[simp] theorem State.setPc_regs (s : State) (v : Word) : (s.setPc v).regs = s.regs := rfl
@[simp] theorem State.setPc_pc (s : State) (v : Word) : (s.setPc v).pc = v := rfl
@[simp] theorem State.setPc_sp (s : State) (v : Word) : (s.setPc v).sp = s.sp := rfl
@[simp] theorem State.setPc_flags (s : State) (v : Word) : (s.setPc v).flags = s.flags := rfl
@[simp] theorem State.setPc_mem (s : State) (v : Word) : (s.setPc v).mem = s.mem := rfl
@[simp] theorem State.setPc_halted (s : State) (v : Word) : (s.setPc v).halted = s.halted := rfl
@[simp] theorem State.setPc_fault (s : State) (v : Word) : (s.setPc v).fault = s.fault := rfl
@[simp] theorem State.setPc_ioTrace (s : State) (v : Word) : (s.setPc v).ioTrace = s.ioTrace := rfl
@[simp] theorem State.setPc_reg (s : State) (v : Word) (q : Reg) : (s.setPc v).reg q = s.reg q := rfl
@[simp] theorem State.setPc_byte (s : State) (v : Word) (x : Word) : (s.setPc v).byte x = s.byte x := rfl

/-! ### setSp -/

@[simp] theorem State.setSp_regs (s : State) (v : Word) : (s.setSp v).regs = s.regs := rfl
@[simp] theorem State.setSp_pc (s : State) (v : Word) : (s.setSp v).pc = s.pc := rfl
@[simp] theorem State.setSp_sp (s : State) (v : Word) : (s.setSp v).sp = v := rfl
@[simp] theorem State.setSp_flags (s : State) (v : Word) : (s.setSp v).flags = s.flags := rfl
@[simp] theorem State.setSp_mem (s : State) (v : Word) : (s.setSp v).mem = s.mem := rfl
@[simp] theorem State.setSp_halted (s : State) (v : Word) : (s.setSp v).halted = s.halted := rfl
@[simp] theorem State.setSp_fault (s : State) (v : Word) : (s.setSp v).fault = s.fault := rfl
@[simp] theorem State.setSp_ioTrace (s : State) (v : Word) : (s.setSp v).ioTrace = s.ioTrace := rfl
@[simp] theorem State.setSp_reg (s : State) (v : Word) (q : Reg) : (s.setSp v).reg q = s.reg q := rfl
@[simp] theorem State.setSp_byte (s : State) (v : Word) (x : Word) : (s.setSp v).byte x = s.byte x := rfl

/-! ### setFlags -/

@[simp] theorem State.setFlags_regs (s : State) (f : Flags) : (s.setFlags f).regs = s.regs := rfl
@[simp] theorem State.setFlags_pc (s : State) (f : Flags) : (s.setFlags f).pc = s.pc := rfl
@[simp] theorem State.setFlags_sp (s : State) (f : Flags) : (s.setFlags f).sp = s.sp := rfl
@[simp] theorem State.setFlags_flags (s : State) (f : Flags) : (s.setFlags f).flags = f := rfl
@[simp] theorem State.setFlags_mem (s : State) (f : Flags) : (s.setFlags f).mem = s.mem := rfl
@[simp] theorem State.setFlags_halted (s : State) (f : Flags) : (s.setFlags f).halted = s.halted := rfl
@[simp] theorem State.setFlags_fault (s : State) (f : Flags) : (s.setFlags f).fault = s.fault := rfl
@[simp] theorem State.setFlags_ioTrace (s : State) (f : Flags) : (s.setFlags f).ioTrace = s.ioTrace := rfl
@[simp] theorem State.setFlags_reg (s : State) (f : Flags) (q : Reg) : (s.setFlags f).reg q = s.reg q := rfl
@[simp] theorem State.setFlags_byte (s : State) (f : Flags) (x : Word) : (s.setFlags f).byte x = s.byte x := rfl

/-! ### setMem -/

@[simp] theorem State.setMem_regs (s : State) (m : Memory) : (s.setMem m).regs = s.regs := rfl
@[simp] theorem State.setMem_pc (s : State) (m : Memory) : (s.setMem m).pc = s.pc := rfl
@[simp] theorem State.setMem_sp (s : State) (m : Memory) : (s.setMem m).sp = s.sp := rfl
@[simp] theorem State.setMem_flags (s : State) (m : Memory) : (s.setMem m).flags = s.flags := rfl
@[simp] theorem State.setMem_mem (s : State) (m : Memory) : (s.setMem m).mem = m := rfl
@[simp] theorem State.setMem_halted (s : State) (m : Memory) : (s.setMem m).halted = s.halted := rfl
@[simp] theorem State.setMem_fault (s : State) (m : Memory) : (s.setMem m).fault = s.fault := rfl
@[simp] theorem State.setMem_ioTrace (s : State) (m : Memory) : (s.setMem m).ioTrace = s.ioTrace := rfl
@[simp] theorem State.setMem_reg (s : State) (m : Memory) (q : Reg) : (s.setMem m).reg q = s.reg q := rfl

/-! ### halt -/

@[simp] theorem State.halt_regs (s : State) : (s.halt).regs = s.regs := rfl
@[simp] theorem State.halt_pc (s : State) : (s.halt).pc = s.pc := rfl
@[simp] theorem State.halt_sp (s : State) : (s.halt).sp = s.sp := rfl
@[simp] theorem State.halt_flags (s : State) : (s.halt).flags = s.flags := rfl
@[simp] theorem State.halt_mem (s : State) : (s.halt).mem = s.mem := rfl
@[simp] theorem State.halt_halted (s : State) : (s.halt).halted = true := rfl
@[simp] theorem State.halt_fault (s : State) : (s.halt).fault = s.fault := rfl
@[simp] theorem State.halt_ioTrace (s : State) : (s.halt).ioTrace = s.ioTrace := rfl
@[simp] theorem State.halt_reg (s : State) (q : Reg) : (s.halt).reg q = s.reg q := rfl
@[simp] theorem State.halt_byte (s : State) (x : Word) : (s.halt).byte x = s.byte x := rfl

/-! ### recordFault -/

@[simp] theorem State.recordFault_regs (s : State) (r : FaultReason) : (s.recordFault r).regs = s.regs := rfl
@[simp] theorem State.recordFault_pc (s : State) (r : FaultReason) : (s.recordFault r).pc = s.pc := rfl
@[simp] theorem State.recordFault_sp (s : State) (r : FaultReason) : (s.recordFault r).sp = s.sp := rfl
@[simp] theorem State.recordFault_flags (s : State) (r : FaultReason) : (s.recordFault r).flags = s.flags := rfl
@[simp] theorem State.recordFault_mem (s : State) (r : FaultReason) : (s.recordFault r).mem = s.mem := rfl
@[simp] theorem State.recordFault_halted (s : State) (r : FaultReason) : (s.recordFault r).halted = s.halted := rfl
@[simp] theorem State.recordFault_fault (s : State) (r : FaultReason) : (s.recordFault r).fault = some r := rfl
@[simp] theorem State.recordFault_ioTrace (s : State) (r : FaultReason) : (s.recordFault r).ioTrace = s.ioTrace := rfl
@[simp] theorem State.recordFault_reg (s : State) (r : FaultReason) (q : Reg) : (s.recordFault r).reg q = s.reg q := rfl
@[simp] theorem State.recordFault_byte (s : State) (r : FaultReason) (x : Word) : (s.recordFault r).byte x = s.byte x := rfl

/-! ### logRead -/

@[simp] theorem State.logRead_regs (s : State) (a v : Word) : (s.logRead a v).regs = s.regs := rfl
@[simp] theorem State.logRead_pc (s : State) (a v : Word) : (s.logRead a v).pc = s.pc := rfl
@[simp] theorem State.logRead_sp (s : State) (a v : Word) : (s.logRead a v).sp = s.sp := rfl
@[simp] theorem State.logRead_flags (s : State) (a v : Word) : (s.logRead a v).flags = s.flags := rfl
@[simp] theorem State.logRead_mem (s : State) (a v : Word) : (s.logRead a v).mem = s.mem := rfl
@[simp] theorem State.logRead_halted (s : State) (a v : Word) : (s.logRead a v).halted = s.halted := rfl
@[simp] theorem State.logRead_fault (s : State) (a v : Word) : (s.logRead a v).fault = s.fault := rfl
@[simp] theorem State.logRead_ioTrace (s : State) (a v : Word) : (s.logRead a v).ioTrace = s.ioTrace ++ [.read a v] := rfl
@[simp] theorem State.logRead_reg (s : State) (a v : Word) (q : Reg) : (s.logRead a v).reg q = s.reg q := rfl
@[simp] theorem State.logRead_byte (s : State) (a v : Word) (x : Word) : (s.logRead a v).byte x = s.byte x := rfl

/-! ### logWrite -/

@[simp] theorem State.logWrite_regs (s : State) (a v : Word) : (s.logWrite a v).regs = s.regs := rfl
@[simp] theorem State.logWrite_pc (s : State) (a v : Word) : (s.logWrite a v).pc = s.pc := rfl
@[simp] theorem State.logWrite_sp (s : State) (a v : Word) : (s.logWrite a v).sp = s.sp := rfl
@[simp] theorem State.logWrite_flags (s : State) (a v : Word) : (s.logWrite a v).flags = s.flags := rfl
@[simp] theorem State.logWrite_mem (s : State) (a v : Word) : (s.logWrite a v).mem = s.mem := rfl
@[simp] theorem State.logWrite_halted (s : State) (a v : Word) : (s.logWrite a v).halted = s.halted := rfl
@[simp] theorem State.logWrite_fault (s : State) (a v : Word) : (s.logWrite a v).fault = s.fault := rfl
@[simp] theorem State.logWrite_ioTrace (s : State) (a v : Word) : (s.logWrite a v).ioTrace = s.ioTrace ++ [.write a v] := rfl
@[simp] theorem State.logWrite_reg (s : State) (a v : Word) (q : Reg) : (s.logWrite a v).reg q = s.reg q := rfl
@[simp] theorem State.logWrite_byte (s : State) (a v : Word) (x : Word) : (s.logWrite a v).byte x = s.byte x := rfl

/-! ### Reset -/

@[simp] theorem State.resetWith_regs (p : ResetChoice) : (State.resetWith p).regs = p.regs := rfl
@[simp] theorem State.resetWith_pc (p : ResetChoice) : (State.resetWith p).pc = p.resetPc := rfl
@[simp] theorem State.resetWith_sp (p : ResetChoice) : (State.resetWith p).sp = p.resetSp := rfl
@[simp] theorem State.resetWith_flags (p : ResetChoice) : (State.resetWith p).flags = p.flags := rfl
@[simp] theorem State.resetWith_mem (p : ResetChoice) : (State.resetWith p).mem = p.memInit := rfl
@[simp] theorem State.resetWith_halted (p : ResetChoice) : (State.resetWith p).halted = false := rfl
@[simp] theorem State.resetWith_fault (p : ResetChoice) : (State.resetWith p).fault = none := rfl
@[simp] theorem State.resetWith_ioTrace (p : ResetChoice) : (State.resetWith p).ioTrace = [] := rfl

end Sys2Proof.Machine
end

