-- ==== Sys2Proof/Laws/Ops.lean ====
section
/-! SUPPORT. What each shared operation can do, said once: the memory map, the three access primitives, the stack and the operand forms. -/

namespace Sys2Proof.Machine

/-! ## The memory map -/

theorem region_io_iff (a : Word) : region a = .io ↔ 0xF000 ≤ a.toNat ∧ a.toNat ≤ 0xF0FF := by
  simp only [region]
  split_ifs <;> simp <;> omega

theorem plainWord_iff (a : Word) : plainWord a = true ↔ a.toNat < 0xEFFF := by
  simp only [plainWord, Bool.and_eq_true, plain_iff]
  constructor <;> intro h <;> bv_omega

theorem not_plainWord_of_io {a : Word} (h : region a = .io) : plainWord a = false := by
  rw [Bool.eq_false_iff, ne_eq, plainWord_iff]
  have := (region_io_iff a).1 h
  omega

theorem not_io_of_plainWord {a : Word} (h : plainWord a = true) : region a ≠ .io := fun hio => by
  simp [not_plainWord_of_io hio] at h

/-! ## The access primitives -/

/-- Everything a fetch can do (20_memory.md rule R60). -/
theorem fetch16_cases (a : Word) (s : State) :
    (plainWord a = true ∧ fetch16 a s = .ok (s.mem.readWord a)) ∨
      (plainWord a = false ∧ fetch16 a s = .error (.fetchRegion a)) := by
  unfold fetch16
  cases h : plainWord a <;> simp

/-- Everything a data read can do (20_memory.md rule R61). -/
theorem memRead_cases (a : Word) (s : State) :
    (region a = .io ∧ memRead a s = .ok (ioAnswer a s, s.logRead a (ioAnswer a s))) ∨
      (plainWord a = true ∧ memRead a s = .ok (s.mem.readWord a, s)) ∨
      (region a ≠ .io ∧ plainWord a = false ∧ memRead a s = .error (.dataRegion a)) := by
  unfold memRead
  by_cases h : region a = .io
  · simp [h, ioRead]
  · cases hp : plainWord a <;> simp [h]

/-- Everything a data write can do (20_memory.md rule R62). -/
theorem memWrite_cases (a v : Word) (s : State) :
    (region a = .io ∧ memWrite a v s = .ok (s.logWrite a v)) ∨
      (plainWord a = true ∧ memWrite a v s = .ok (s.setMem (s.mem.writeWord a v))) ∨
      (region a ≠ .io ∧ plainWord a = false ∧ memWrite a v s = .error (.dataRegion a)) := by
  unfold memWrite
  by_cases h : region a = .io
  · simp [h, ioWrite]
  · cases hp : plainWord a <;> simp [h]

/-- A read that answers leaves the state alone, or logs one read of the window. -/
theorem memRead_ok {a : Word} {s t : State} {v : Word} (h : memRead a s = .ok (v, t)) :
    (region a = .io ∧ v = ioAnswer a s ∧ t = s.logRead a v) ∨
      (plainWord a = true ∧ v = s.mem.readWord a ∧ t = s) := by
  rcases memRead_cases a s with ⟨hr, e⟩ | ⟨hp, e⟩ | ⟨_, _, e⟩ <;> rw [e] at h <;> simp at h
  · obtain ⟨rfl, rfl⟩ := h; exact .inl ⟨hr, rfl, rfl⟩
  · obtain ⟨rfl, rfl⟩ := h; exact .inr ⟨hp, rfl, rfl⟩

/-- A write that answers stores one word of plain memory, or logs one write to the window. -/
theorem memWrite_ok {a v : Word} {s t : State} (h : memWrite a v s = .ok t) :
    (region a = .io ∧ t = s.logWrite a v) ∨
      (plainWord a = true ∧ t = s.setMem (s.mem.writeWord a v)) := by
  rcases memWrite_cases a v s with ⟨hr, e⟩ | ⟨hp, e⟩ | ⟨_, _, e⟩ <;> rw [e] at h <;> simp at h
  · exact .inl ⟨hr, h.symm⟩
  · exact .inr ⟨hp, h.symm⟩

/-- A byte after a word is stored: the stored word's two bytes, and every other byte as before. -/
theorem byte_writeWord (s : State) (a v x : Word) :
    (s.setMem (s.mem.writeWord a v)).byte x =
      if x = a + 1 then highByte v else if x = a then lowByte v else s.byte x := by
  simp only [State.byte, State.setMem_mem, Memory.read_writeWord, BitVec.toNat_inj]

/-- A push that answers is a write at `sp - 2` with SP moved there. -/
theorem push_ok {v : Word} {s t : State} (h : push v s = .ok t) :
    ∃ u, memWrite (s.sp - 2) v s = .ok u ∧ t = u.setSp (s.sp - 2) := by
  simp only [push, pushAddress] at h
  split at h
  · next u hu => exact ⟨u, hu, by simpa using h.symm⟩
  · simp at h

/-- A pop that answers is a read at `sp` with SP moved up by 2. -/
theorem pop_ok {s t : State} {v : Word} (h : pop s = .ok (v, t)) :
    ∃ u, memRead s.sp s = .ok (v, u) ∧ t = u.setSp (s.sp + 2) := by
  simp only [pop] at h
  split at h
  · next w u hu => simp at h; obtain ⟨rfl, rfl⟩ := h; exact ⟨u, hu, rfl⟩
  · simp at h

/-- A value operand that answers: from a register or the extension word with the state as it was, or by one read. -/
theorem valueOperand_ok {o : Operand} {s t : State} {v : Word} (h : valueOperand o s = .ok (v, t)) :
    (∃ r, o = .reg r ∧ v = s.reg r ∧ t = s) ∨ (o = .imm v ∧ t = s) ∨
      ∃ m, o = .mem m ∧ memRead (effectiveAddress m s) s = .ok (v, t) := by
  cases o with
  | reg r => simp [valueOperand] at h; exact .inl ⟨r, rfl, h.1.symm, h.2.symm⟩
  | imm e => simp [valueOperand] at h; exact .inr (.inl ⟨by rw [h.1], h.2.symm⟩)
  | mem m => exact .inr (.inr ⟨m, rfl, h⟩)

/-- The sum of a word and a sign-extended word, reduced to 16 bits, is the 16-bit sum. -/
theorem addSigned_eq_add (a e : Word) : addSigned a e = a + e := by
  have h : (e.signExtend 32).setWidth 16 = e := by
    ext i hi
    simp only [BitVec.getElem_setWidth, BitVec.getLsbD_signExtend, hi, if_true]
    rw [BitVec.getLsbD_eq_getElem hi]
    simp
    omega
  unfold addSigned
  rw [BitVec.setWidth_add _ _ (by decide), h, BitVec.setWidth_setWidth_of_le _ (by decide), BitVec.setWidth_eq]

/-! ## Outcomes -/

theorem finish_next {x : Except FaultReason State} {t : State} (h : finish x = .next t) : x = .ok t := by
  cases x <;> simp_all [finish, raise]

theorem finishWith_next {x : Except FaultReason (Word × State)} {k : Word → State → State} {t : State}
    (h : finishWith x k = .next t) : ∃ v u, x = .ok (v, u) ∧ t = k v u := by
  rcases x with r | ⟨v, u⟩
  · simp [finishWith, raise] at h
  · exact ⟨v, u, rfl, by simpa [finishWith] using h.symm⟩

/-- A read of a value operand changes nothing but the I/O bookkeeping, and that only by one read of the window. -/
theorem valueOperand_state {o : Operand} {s t : State} {v : Word} (h : valueOperand o s = .ok (v, t)) :
    t = s ∨ ∃ a, region a = .io ∧ t = s.logRead a v := by
  rcases valueOperand_ok h with ⟨_, _, _, e⟩ | ⟨_, e⟩ | ⟨m, _, hm⟩
  · exact .inl e
  · exact .inl e
  · rcases memRead_ok hm with ⟨hr, _, e⟩ | ⟨_, _, e⟩
    · exact .inr ⟨_, hr, e⟩
    · exact .inl e

end Sys2Proof.Machine
end

