-- ==== Sys2Proof/Laws/Exec.lean ====
section
/-! SUPPORT. What executing an instruction and taking a step can do, said once. -/

namespace Sys2Proof.Machine

open Sys2Proof.Safety

/-- What an instruction that answers may have done on the bus and to the bookkeeping: at most one data access, to plain
memory or to the window, and nothing to the recorded fault. -/
structure Effect (s t : State) : Prop where
  fault : t.fault = s.fault
  bus : (t.mem = s.mem ∧ t.ioTrace = s.ioTrace) ∨
    (∃ a v, plainWord a = true ∧ t.mem = s.mem.writeWord a v ∧ t.ioTrace = s.ioTrace) ∨
    (∃ e, eventInWindow e = true ∧ t.mem = s.mem ∧ t.ioTrace = s.ioTrace ++ [e])

theorem Effect.of_read {a : Word} {s u t : State} {v : Word} (h : memRead a s = .ok (v, u))
    (hf : t.fault = u.fault) (hm : t.mem = u.mem)
    (ht : t.ioTrace = u.ioTrace) : Effect s t := by
  rcases memRead_ok h with ⟨hr, _, rfl⟩ | ⟨_, _, rfl⟩
  · exact ⟨hf, .inr (.inr ⟨.read a v, by simpa [eventInWindow] using hr, hm, ht⟩)⟩
  · exact ⟨hf, .inl ⟨hm, ht⟩⟩

theorem Effect.of_write {a : Word} {s u t : State} {v : Word} (h : memWrite a v s = .ok u)
    (hf : t.fault = u.fault) (hm : t.mem = u.mem)
    (ht : t.ioTrace = u.ioTrace) : Effect s t := by
  rcases memWrite_ok h with ⟨hr, rfl⟩ | ⟨hw, rfl⟩
  · exact ⟨hf, .inr (.inr ⟨.write a v, by simpa [eventInWindow] using hr, hm, ht⟩)⟩
  · exact ⟨hf, .inr (.inl ⟨a, v, hw, hm, ht⟩)⟩

theorem Effect.of_quiet {s t : State} (hf : t.fault = s.fault)
    (hm : t.mem = s.mem) (ht : t.ioTrace = s.ioTrace) : Effect s t := ⟨hf, .inl ⟨hm, ht⟩⟩

/-- An instruction with a value operand that writes registers, flags or the pc alone. -/
theorem Effect.of_operand {o : Operand} {s t : State} {k : Word → State → State}
    (h : finishWith (valueOperand o s) k = .next t)
    (hk : ∀ v u, (k v u).fault = u.fault ∧ (k v u).mem = u.mem ∧
      (k v u).ioTrace = u.ioTrace) : Effect s t := by
  obtain ⟨v, u, hv, rfl⟩ := finishWith_next h
  obtain ⟨h1, h2, h3⟩ := hk v u
  rcases valueOperand_ok hv with ⟨_, _, _, rfl⟩ | ⟨_, rfl⟩ | ⟨m, _, hm⟩
  · exact .of_quiet h1 h2 h3
  · exact .of_quiet h1 h2 h3
  · exact .of_read hm h1 h2 h3

/-- A jump that answers moves the pc or nothing. -/
theorem jumpWhen_next {b : Bool} {m : MemOperand} {s t : State} (h : jumpWhen b m s = .next t) :
    t = if b then s.setPc (effectiveAddress m s) else s := by
  simpa [jumpWhen] using h.symm

theorem Effect.of_jump {b : Bool} {m : MemOperand} {s t : State} (h : jumpWhen b m s = .next t) : Effect s t := by
  rw [jumpWhen_next h]
  cases b <;> exact .of_quiet rfl rfl rfl

/-- Everything executing an instruction can have done on the bus. -/
theorem exec_effect {i : Instr} {s t : State} (h : exec i s = .next t) : Effect s t := by
  cases i with
  | nop => simp only [exec, execNop, Host.Outcome.next.injEq] at h; subst h; exact .of_quiet rfl rfl rfl
  | halt => simp only [exec, execHalt, Host.Outcome.next.injEq] at h; subst h; exact .of_quiet rfl rfl rfl
  | shl rd => simp only [exec, execShl, Host.Outcome.next.injEq] at h; subst h; exact .of_quiet rfl rfl rfl
  | shr rd => simp only [exec, execShr, Host.Outcome.next.injEq] at h; subst h; exact .of_quiet rfl rfl rfl
  | mov rd o => exact .of_operand h fun _ _ => ⟨rfl, rfl, rfl⟩
  | add rd o => exact .of_operand h fun _ _ => ⟨rfl, rfl, rfl⟩
  | sub rd o => exact .of_operand h fun _ _ => ⟨rfl, rfl, rfl⟩
  | and rd o => exact .of_operand h fun _ _ => ⟨rfl, rfl, rfl⟩
  | or rd o => exact .of_operand h fun _ _ => ⟨rfl, rfl, rfl⟩
  | xor rd o => exact .of_operand h fun _ _ => ⟨rfl, rfl, rfl⟩
  | cmp rd o => exact .of_operand h fun _ _ => ⟨rfl, rfl, rfl⟩
  | load rd m => obtain ⟨v, u, hv, rfl⟩ := finishWith_next h; exact .of_read hv rfl rfl rfl
  | store m rs => exact .of_write (finish_next h) rfl rfl rfl
  | jmp m => exact .of_jump h
  | jz m => exact .of_jump h
  | jnz m => exact .of_jump h
  | jc m => exact .of_jump h
  | jnc m => exact .of_jump h
  | jn m => exact .of_jump h
  | call m =>
    simp only [exec, execCall] at h
    split at h
    · next u hu =>
      obtain ⟨w, hw, rfl⟩ := push_ok hu
      simp only [Host.Outcome.next.injEq] at h; subst h
      exact .of_write hw rfl rfl rfl
    · simp [raise] at h
  | ret =>
    obtain ⟨v, u, hv, rfl⟩ := finishWith_next h
    obtain ⟨w, hw, rfl⟩ := pop_ok hv
    exact .of_read hw rfl rfl rfl
  | push rs => obtain ⟨w, hw, rfl⟩ := push_ok (finish_next h); exact .of_write hw rfl rfl rfl
  | pop rd =>
    obtain ⟨v, u, hv, rfl⟩ := finishWith_next h
    obtain ⟨w, hw, rfl⟩ := pop_ok hv
    exact .of_read hw rfl rfl rfl
  | inPort rd p =>
    simp only [exec, execInPort] at h
    split at h
    · obtain ⟨v, u, hv, rfl⟩ := finishWith_next h; exact .of_read hv rfl rfl rfl
    · simp [raise] at h
  | outPort p rs =>
    simp only [exec, execOutPort] at h
    split at h
    · exact .of_write (finish_next h) rfl rfl rfl
    · simp [raise] at h

/-- A data read changes nothing but the I/O bookkeeping. -/
theorem memRead_state {a : Word} {s t : State} {v : Word} (h : memRead a s = .ok (v, t)) :
    t = s ∨ t = s.logRead a v := by
  rcases memRead_ok h with ⟨_, _, e⟩ | ⟨_, _, e⟩ <;> simp [e]

/-- What each instruction that answers did, one line per instruction: every state it can answer. -/
theorem exec_next {i : Instr} {s t : State} (h : exec i s = .next t) :
  match i with
  | .nop => t = s
  | .halt => t = s.halt
  | .mov rd o => ∃ v u, valueOperand o s = .ok (v,u) ∧ t = u.setReg rd v
  | .load rd m => ∃ v u, memRead (effectiveAddress m s) s = .ok (v,u) ∧
      t = (u.setReg rd v).setFlags (loadFlags Config.loadUpdatesZN v s.flags)
  | .store m rs => memWrite (effectiveAddress m s) (s.reg rs) s = .ok t
  | .add rd o => ∃ v u, valueOperand o s = .ok (v,u) ∧
      t = (u.setReg rd (s.reg rd + v)).setFlags (addFlags (s.reg rd) v)
  | .sub rd o => ∃ v u, valueOperand o s = .ok (v,u) ∧
      t = (u.setReg rd (s.reg rd - v)).setFlags (subFlags (s.reg rd) v)
  | .and rd o => ∃ v u, valueOperand o s = .ok (v,u) ∧
      t = (u.setReg rd (s.reg rd &&& v)).setFlags (logicFlags (s.reg rd &&& v) s.flags)
  | .or rd o => ∃ v u, valueOperand o s = .ok (v,u) ∧
      t = (u.setReg rd (s.reg rd ||| v)).setFlags (logicFlags (s.reg rd ||| v) s.flags)
  | .xor rd o => ∃ v u, valueOperand o s = .ok (v,u) ∧
      t = (u.setReg rd (s.reg rd ^^^ v)).setFlags (logicFlags (s.reg rd ^^^ v) s.flags)
  | .cmp rd o => ∃ v u, valueOperand o s = .ok (v,u) ∧ t = u.setFlags (subFlags (s.reg rd) v)
  | .shl rd => t = (s.setReg rd (shlResult (s.reg rd))).setFlags (shlFlags (s.reg rd))
  | .shr rd => t = (s.setReg rd (shrResult (s.reg rd))).setFlags (shrFlags (s.reg rd))
  | .jmp m => t = s.setPc (effectiveAddress m s)
  | .jz m | .jnz m | .jc m | .jnc m | .jn m => t = s ∨ t = s.setPc (effectiveAddress m s)
  | .call m => ∃ u, memWrite (s.sp - 2) s.pc s = .ok u ∧ t = (u.setSp (s.sp - 2)).setPc (effectiveAddress m s)
  | .ret => ∃ v u, memRead s.sp s = .ok (v,u) ∧ t = (u.setSp (s.sp + 2)).setPc v
  | .push rs => ∃ u, memWrite (s.sp - 2) (s.reg rs) s = .ok u ∧ t = u.setSp (s.sp - 2)
  | .pop rd => ∃ v u, memRead s.sp s = .ok (v,u) ∧ t = (u.setSp (s.sp + 2)).setReg rd v
  | .inPort rd p => ∃ v u, memRead (portAddress (portNumber p s)) s = .ok (v,u) ∧
      t = u.setReg rd v ∧ (portNumber p s).toNat ≤ 0xFF
  | .outPort p rs => memWrite (portAddress (portNumber p s)) (s.reg rs) s = .ok t ∧ (portNumber p s).toNat ≤ 0xFF := by
  cases i with
  | nop | halt | shl | shr => simp only [exec, execNop, execHalt, execShl, execShr, Host.Outcome.next.injEq] at h; exact h.symm
  | mov | add | sub | and | or | xor | cmp | load => exact finishWith_next h
  | store => exact finish_next h
  | jmp => simpa using jumpWhen_next h
  | jz | jnz | jc | jnc | jn => have := jumpWhen_next h; split at this <;> simp [this]
  | call m =>
    simp only [exec, execCall] at h
    split at h
    · next u hu => obtain ⟨w, hw, rfl⟩ := push_ok hu; simp at h; exact ⟨w, hw, h.symm⟩
    · simp [raise] at h
  | ret => obtain ⟨v, u, hv, rfl⟩ := finishWith_next h; obtain ⟨w, hw, rfl⟩ := pop_ok hv; exact ⟨_, _, hw, rfl⟩
  | push rs => exact push_ok (finish_next h)
  | pop => obtain ⟨v, u, hv, rfl⟩ := finishWith_next h; obtain ⟨w, hw, rfl⟩ := pop_ok hv; exact ⟨_, _, hw, rfl⟩
  | inPort rd p =>
    simp only [exec, execInPort] at h
    split at h
    · next hp => obtain ⟨v, u, hv, e⟩ := finishWith_next h; exact ⟨v, u, hv, e, by simpa [portInRange] using hp⟩
    · simp [raise] at h
  | outPort p rs =>
    simp only [exec, execOutPort] at h
    split at h
    · next hp => exact ⟨finish_next h, by simpa [portInRange] using hp⟩
    · simp [raise] at h

/-- A step that answers ran an instruction it fetched, from a state that had neither faulted nor halted. -/
theorem step_next {s t : State} (h : step s = .next t) :
    s.fault = none ∧ s.halted = false ∧ ∃ i next, fetchInstr s = .ok (i, next) ∧ exec i (s.setPc next) = .next t := by
  unfold step at h
  split at h
  · simp at h
  · next hf =>
    split at h
    · simp at h
    · next hh =>
      split at h
      · simp [raise] at h
      · next i n hi => exact ⟨hf, by simpa using hh, i, n, hi, h⟩

/-- What every step keeps, every run keeps. -/
theorem run_keeps {P : State → Prop} (keep : ∀ s t, P s → step s = .next t → P t) :
    ∀ (n : Nat) (s t : State), P s → Sys2Proof.core.run n s = .next t → P t
  | 0, _, _, hs, h => by cases h; exact hs
  | n + 1, s, t, hs, h => by
    simp only [Host.Core.run] at h
    split at h
    · next u hu => exact run_keeps keep n u t (keep s u hs hu) h
    · simp at h
    · simp at h

end Sys2Proof.Machine
end

