-- ==== Sys2Proof/Laws/PerInstr.lean ====
section
/-! SUPPORT. The per-instruction family BaseWord: the canonical base word of an instruction is a well-formed one, and the instruction has an extension word exactly when its base word says so. -/

namespace Sys2Proof.Laws.BaseWord

/-- The canonical base word passes every check of 30_encoding.md rule R104, and an extension word follows it exactly
when rule R93 says so. -/
def Statement (i : Instr) : Prop :=
  (instrFields i).wellFormed = true ∧ (instrFields i).hasExtension = (instrExt i).isSome

/-! One lemma per class of 30_encoding.md rule R102. -/

theorem value_class (op : BitVec 5) (rd : Reg) (o : Operand) (h : opClass op = some .value) :
    (valueFields op rd o).wellFormed = true ∧ (valueFields op rd o).hasExtension = (valueExt o).isSome := by
  have hop : (valueFields op rd o).opcode = op := rfl
  simp only [Fields.wellFormed, Fields.unusedClear, Fields.opcodeAssigned, Fields.modeNotReserved,
    Fields.modeAdmitted, Fields.rdNamesRegister, Fields.rsNamesRegister, Fields.hasExtension, hop, h]
  rcases o with (_ | _ | _ | _) | _ | (_ | (_ | _ | _ | _) | ⟨(_ | _ | _ | _), _⟩ | _) <;> cases rd <;> exact ⟨rfl, rfl⟩

theorem target_class (op : BitVec 5) (m : MemOperand) (h : opClass op = some .target) :
    (targetFields op m).wellFormed = true ∧ (targetFields op m).hasExtension = (memExt m).isSome := by
  have hop : (targetFields op m).opcode = op := rfl
  simp only [Fields.wellFormed, Fields.unusedClear, Fields.opcodeAssigned, Fields.modeNotReserved,
    Fields.modeAdmitted, Fields.rdNamesRegister, Fields.rsNamesRegister, Fields.hasExtension, hop, h]
  rcases m with _ | (_ | _ | _ | _) | ⟨(_ | _ | _ | _), _⟩ | _ <;> exact ⟨rfl, rfl⟩

/-! One lemma per constructor. -/

theorem nop : Statement .nop := ⟨rfl, rfl⟩

theorem halt : Statement .halt := ⟨rfl, rfl⟩

theorem mov (rd : Reg) (src : Operand) : Statement (.mov rd src) := value_class 2 rd src rfl

theorem load (rd : Reg) (src : MemOperand) : Statement (.load rd src) := by
  rcases src with _ | (_ | _ | _ | _) | ⟨(_ | _ | _ | _), _⟩ | _ <;> cases rd <;> exact ⟨rfl, rfl⟩

theorem store (dst : MemOperand) (rs : Reg) : Statement (.store dst rs) := by
  rcases dst with _ | (_ | _ | _ | _) | ⟨(_ | _ | _ | _), _⟩ | _ <;> cases rs <;> exact ⟨rfl, rfl⟩

theorem add (rd : Reg) (src : Operand) : Statement (.add rd src) := value_class 5 rd src rfl

theorem sub (rd : Reg) (src : Operand) : Statement (.sub rd src) := value_class 6 rd src rfl

theorem and (rd : Reg) (src : Operand) : Statement (.and rd src) := value_class 7 rd src rfl

theorem or (rd : Reg) (src : Operand) : Statement (.or rd src) := value_class 8 rd src rfl

theorem xor (rd : Reg) (src : Operand) : Statement (.xor rd src) := value_class 9 rd src rfl

theorem cmp (rd : Reg) (src : Operand) : Statement (.cmp rd src) := value_class 10 rd src rfl

theorem shl (rd : Reg) : Statement (.shl rd) := by cases rd <;> exact ⟨rfl, rfl⟩

theorem shr (rd : Reg) : Statement (.shr rd) := by cases rd <;> exact ⟨rfl, rfl⟩

theorem jmp (target : MemOperand) : Statement (.jmp target) := target_class 13 target rfl

theorem jz (target : MemOperand) : Statement (.jz target) := target_class 14 target rfl

theorem jnz (target : MemOperand) : Statement (.jnz target) := target_class 15 target rfl

theorem jc (target : MemOperand) : Statement (.jc target) := target_class 16 target rfl

theorem jnc (target : MemOperand) : Statement (.jnc target) := target_class 17 target rfl

theorem jn (target : MemOperand) : Statement (.jn target) := target_class 18 target rfl

theorem call (target : MemOperand) : Statement (.call target) := target_class 19 target rfl

theorem ret : Statement .ret := ⟨rfl, rfl⟩

theorem push (rs : Reg) : Statement (.push rs) := by cases rs <;> exact ⟨rfl, rfl⟩

theorem pop (rd : Reg) : Statement (.pop rd) := by cases rd <;> exact ⟨rfl, rfl⟩

theorem inPort (rd : Reg) (port : PortOperand) : Statement (.inPort rd port) := by
  rcases port with (_ | _ | _ | _) | _ <;> cases rd <;> exact ⟨rfl, rfl⟩

theorem outPort (port : PortOperand) (rs : Reg) : Statement (.outPort port rs) := by
  rcases port with (_ | _ | _ | _) | _ <;> cases rs <;> exact ⟨rfl, rfl⟩

end Sys2Proof.Laws.BaseWord
end

