-- ==== Sys2Proof/Tests/Slice0.lean ====
section
/-! SUPPORT. The model's own tests: ill-formed words that WellFormed refuses, words written out from the spec that decode, single steps with results from spec/95_test_vectors.md (sections 2 to 8), and for every obligation with hypotheses a concrete state and operands that meet them. -/

namespace Sys2Proof.Tests

open Sys2Proof.Machine Sys2Proof.Claims Sys2Proof.Safety

/-! ## Helpers -/

/-- The flags written ZNCV, as the spec's vectors write them. -/
def zncv (z n c v : Nat) : Flags := { z := z == 1, n := n == 1, c := c == 1, v := v == 1 }

/-- The four registers. -/
def regs (a b c d : Word) : Regs := { r0 := a, r1 := b, r2 := c, r3 := d }

/-- A machine at pc 0x8000, SP 0x7FFF, with these registers and flags, memory `m` and the words `ws` at the pc. -/
def start (g : Regs) (f : Flags) (m : Memory) (ws : List Word) : State :=
  { State.reset with regs := g, flags := f, mem := m.load 0x8000 (bytesOfWords ws) }

/-- The outcome is a next state of which `p` holds. -/
def nextIs (o : Result) (p : State → Bool) : Bool :=
  match o with
  | .next t => p t
  | .fault _ | .refused _ => false

/-- The outcome is the fault `r`, raised by this step. -/
def raises (o : Result) (r : FaultReason) : Bool :=
  match o with
  | .fault (.raised q) => decide (q = r)
  | .fault (.stuckFaulted _) | .fault .stuckHalted | .next _ | .refused _ => false

/-- The word at a plain address. -/
def m16 (s : State) (a : Word) : Word := s.mem.readWord a

/-- The base word of the five fields. -/
def base (opcode : BitVec 5) (mode rd rs : BitVec 3) (unused : BitVec 2) : Fields :=
  { opcode := opcode, mode := mode, rd := rd, rs := rs, unused := unused }

/-! ## WellFormed refuses an ill-formed term for each check (spec/95_test_vectors.md sections 3, 4, 8) -/

theorem test_unused_bit_ill_formed : (base 0 0 0 0 1).unusedClear = false ∧ (base 0 0 0 0 1).wellFormed = false := by
  decide

theorem test_opcode_25_ill_formed : (base 25 0 0 0 0).opcodeAssigned = false ∧ (base 25 0 0 0 0).wellFormed = false := by
  decide

theorem test_mode_6_ill_formed : (base 5 6 0 0 0).modeNotReserved = false ∧ (base 5 6 0 0 0).wellFormed = false := by
  decide

theorem test_load_mode_1_ill_formed : (base 3 1 0 0 0).modeAdmitted = false ∧ (base 3 1 0 0 0).wellFormed = false := by
  decide

theorem test_rd_4_ill_formed : (base 5 0 4 0 0).rdNamesRegister = false ∧ (base 5 0 4 0 0).wellFormed = false := by decide

theorem test_rs_5_ill_formed : (base 5 0 0 5 0).rsNamesRegister = false ∧ (base 5 0 0 5 0).wellFormed = false := by decide

/-- Ignored fields may hold anything (rule R106): NOP with MODE, RD and RS all ones, ADD in mode 001 with RS = 7. -/
theorem test_ignored_fields_well_formed :
    (base 0 7 7 7 0).wellFormed = true ∧ (base 5 1 0 7 0).wellFormed = true := by decide

/-! ## Words written out bit by bit (rules R91, R103) decode, and the encoder writes them

OPCODE_MODE_RD_RS_UNUSED; spec/95_test_vectors.md sections 1 to 7 give the words. -/

theorem test_decode_nop : decode (bytesOfWords [0b00000_000_000_000_00]) = .ok (.nop, []) ∧ encode (.nop) = [0b00000_000_000_000_00] :=
  ⟨rfl, by decide⟩

theorem test_decode_halt : decode (bytesOfWords [0b00001_000_000_000_00]) = .ok (.halt, []) ∧ encode (.halt) = [0b00001_000_000_000_00] :=
  ⟨rfl, by decide⟩

theorem test_decode_mov : decode (bytesOfWords [0b00010_100_001_010_00, 0xFFFE]) = .ok (.mov .r1 (.mem (.off .r2 0xFFFE)), []) ∧ encode (.mov .r1 (.mem (.off .r2 0xFFFE))) = [0b00010_100_001_010_00, 0xFFFE] :=
  ⟨rfl, by decide⟩

theorem test_decode_load : decode (bytesOfWords [0b00011_100_001_010_00, 0x0004]) = .ok (.load .r1 (.off .r2 4), []) ∧ encode (.load .r1 (.off .r2 4)) = [0b00011_100_001_010_00, 0x0004] :=
  ⟨rfl, by decide⟩

theorem test_decode_store : decode (bytesOfWords [0b00100_011_010_011_00]) = .ok (.store (.ind .r2) .r3, []) ∧ encode (.store (.ind .r2) .r3) = [0b00100_011_010_011_00] :=
  ⟨rfl, by decide⟩

theorem test_decode_add : decode (bytesOfWords [0b00101_001_000_000_00, 0x000A]) = .ok (.add .r0 (.imm 10), []) ∧ encode (.add .r0 (.imm 10)) = [0b00101_001_000_000_00, 0x000A] :=
  ⟨rfl, by decide⟩

theorem test_decode_sub : decode (bytesOfWords [0b00110_011_000_001_00]) = .ok (.sub .r0 (.mem (.ind .r1)), []) ∧ encode (.sub .r0 (.mem (.ind .r1))) = [0b00110_011_000_001_00] :=
  ⟨rfl, by decide⟩

theorem test_decode_and : decode (bytesOfWords [0b00111_001_000_000_00, 0x00FF]) = .ok (.and .r0 (.imm 0x00FF), []) ∧ encode (.and .r0 (.imm 0x00FF)) = [0b00111_001_000_000_00, 0x00FF] :=
  ⟨rfl, by decide⟩

theorem test_decode_or : decode (bytesOfWords [0b01000_000_000_001_00]) = .ok (.or .r0 (.reg .r1), []) ∧ encode (.or .r0 (.reg .r1)) = [0b01000_000_000_001_00] :=
  ⟨rfl, by decide⟩

theorem test_decode_xor : decode (bytesOfWords [0b01001_000_000_000_00]) = .ok (.xor .r0 (.reg .r0), []) ∧ encode (.xor .r0 (.reg .r0)) = [0b01001_000_000_000_00] :=
  ⟨rfl, by decide⟩

theorem test_decode_cmp : decode (bytesOfWords [0b01010_101_000_000_00, 0x0000]) = .ok (.cmp .r0 (.mem (.rel 0)), []) ∧ encode (.cmp .r0 (.mem (.rel 0))) = [0b01010_101_000_000_00, 0x0000] :=
  ⟨rfl, by decide⟩

theorem test_decode_shl : decode (bytesOfWords [0b01011_000_000_000_00]) = .ok (.shl .r0, []) ∧ encode (.shl .r0) = [0b01011_000_000_000_00] :=
  ⟨rfl, by decide⟩

theorem test_decode_shr : decode (bytesOfWords [0b01100_000_001_000_00]) = .ok (.shr .r1, []) ∧ encode (.shr .r1) = [0b01100_000_001_000_00] :=
  ⟨rfl, by decide⟩

theorem test_decode_jmp : decode (bytesOfWords [0b01101_010_000_000_00, 0x8010]) = .ok (.jmp (.dir 0x8010), []) ∧ encode (.jmp (.dir 0x8010)) = [0b01101_010_000_000_00, 0x8010] :=
  ⟨rfl, by decide⟩

theorem test_decode_jz : decode (bytesOfWords [0b01110_101_000_000_00, 0x0010]) = .ok (.jz (.rel 0x0010), []) ∧ encode (.jz (.rel 0x0010)) = [0b01110_101_000_000_00, 0x0010] :=
  ⟨rfl, by decide⟩

theorem test_decode_jnz : decode (bytesOfWords [0b01111_101_000_000_00, 0xFFF6]) = .ok (.jnz (.rel 0xFFF6), []) ∧ encode (.jnz (.rel 0xFFF6)) = [0b01111_101_000_000_00, 0xFFF6] :=
  ⟨rfl, by decide⟩

theorem test_decode_jc : decode (bytesOfWords [0b10000_101_000_000_00, 0x0006]) = .ok (.jc (.rel 6), []) ∧ encode (.jc (.rel 6)) = [0b10000_101_000_000_00, 0x0006] :=
  ⟨rfl, by decide⟩

theorem test_decode_jnc : decode (bytesOfWords [0b10001_101_000_000_00, 0x0006]) = .ok (.jnc (.rel 6), []) ∧ encode (.jnc (.rel 6)) = [0b10001_101_000_000_00, 0x0006] :=
  ⟨rfl, by decide⟩

theorem test_decode_jn : decode (bytesOfWords [0b10010_101_000_000_00, 0x0006]) = .ok (.jn (.rel 6), []) ∧ encode (.jn (.rel 6)) = [0b10010_101_000_000_00, 0x0006] :=
  ⟨rfl, by decide⟩

theorem test_decode_call : decode (bytesOfWords [0b10011_100_000_001_00, 0x0002]) = .ok (.call (.off .r1 2), []) ∧ encode (.call (.off .r1 2)) = [0b10011_100_000_001_00, 0x0002] :=
  ⟨rfl, by decide⟩

theorem test_decode_ret : decode (bytesOfWords [0b10100_000_000_000_00]) = .ok (.ret, []) ∧ encode (.ret) = [0b10100_000_000_000_00] :=
  ⟨rfl, by decide⟩

theorem test_decode_push : decode (bytesOfWords [0b10101_000_000_010_00]) = .ok (.push .r2, []) ∧ encode (.push .r2) = [0b10101_000_000_010_00] :=
  ⟨rfl, by decide⟩

theorem test_decode_pop : decode (bytesOfWords [0b10110_000_011_000_00]) = .ok (.pop .r3, []) ∧ encode (.pop .r3) = [0b10110_000_011_000_00] :=
  ⟨rfl, by decide⟩

theorem test_decode_in : decode (bytesOfWords [0b10111_000_010_001_00]) = .ok (.inPort .r2 (.reg .r1), []) ∧ encode (.inPort .r2 (.reg .r1)) = [0b10111_000_010_001_00] :=
  ⟨rfl, by decide⟩

theorem test_decode_out : decode (bytesOfWords [0b11000_001_000_001_00, 0x0000]) = .ok (.outPort (.imm 0) .r1, []) ∧ encode (.outPort (.imm 0) .r1) = [0b11000_001_000_001_00, 0x0000] :=
  ⟨rfl, by decide⟩

/-- Rejections by name, in the order of rule R104 (spec/95_test_vectors.md section 8). -/
theorem test_rejections :
    decode [0xFF, 0xFF] = .error (.rejected .unusedBits) ∧ decode [0xFC, 0xFF] = .error (.rejected .reservedOpcode) ∧
    decode [0xE0, 0x2E] = .error (.rejected .reservedMode) ∧ decode [0x00, 0x19] = .error (.rejected .unsupportedMode) ∧
    decode [0x10, 0xA8] = .error (.rejected .reservedRegister) ∧ decode [0x00, 0x11] = .error .truncated :=
  ⟨rfl, rfl, rfl, rfl, rfl, rfl⟩

/-- The host's two questions on words of the opcode table: the decoder reads a table word, operand words zero, and the
step runs it as the first instruction after reset. -/
theorem test_table_words :
    decodeTableWord 16 0x2804 = some (.add .r0 (.reg .r1)) ∧ decodeTableWord 16 0x1A20 = some (.load .r1 (.dir 0)) ∧
    decodeTableWord 16 0xFFFF = none :=
  ⟨rfl, rfl, rfl⟩

theorem test_first_word_after_reset :
    [0x0000, 0x0800, 0x1000, 0x1A00, 0x2200, 0x2800, 0x3000, 0x3800, 0x4000, 0x4800, 0x5000, 0x5800, 0x6000, 0x6A00, 0x7200,
      0x7A00, 0x8200, 0x8A00, 0x9200, 0x9A00, 0xA000, 0xA800, 0xB000, 0xB800, 0xC000].all
      (fun w => nextIs (step (State.reset.withFetchWord 16 w)) fun _ => true) = true := by decide

/-! ## Single steps (spec/95_test_vectors.md sections 2 to 8) -/

theorem test_nop_ignored_fields :
    nextIs (step (start (regs 0 0 0 0) (zncv 1 1 1 1) [] [0x07FC])) (fun t => decide (t.pc = 0x8002 ∧ t.flags = zncv 1 1 1 1 ∧ t.sp = 0x7FFF)) = true := by decide

theorem test_halt :
    nextIs (step (start (regs 1 2 3 4) (zncv 0 0 0 0) [] [0x0800])) (fun t => decide (t.halted = true ∧ t.pc = 0x8002 ∧ t.regs = regs 1 2 3 4)) = true := by decide

theorem test_mov_zero_keeps_flags :
    nextIs (step (start (regs 9 0 0 0) (zncv 0 1 1 1) [] [0x1100, 0])) (fun t => decide (t.regs = regs 0 0 0 0 ∧ t.flags = zncv 0 1 1 1 ∧ t.pc = 0x8004)) = true := by decide

theorem test_mov_offset :
    nextIs (step (start (regs 0 0 0x0202 0) (zncv 0 0 0 0) [(0x0200, 0x42)] [0x1428, 0xFFFE])) (fun t => decide (t.regs = regs 0 0x0042 0x0202 0 ∧ t.pc = 0x8004)) = true := by decide

theorem test_load_odd_address :
    nextIs (step (start (regs 0 0 0 0) (zncv 0 0 0 0) [(0x2000, 0x12), (0x2001, 0x34), (0x2002, 0x56), (0x2003, 0x78)] [0x1A00, 0x2001])) (fun t => decide (t.regs.r0 = 0x5634 ∧ t.flags.c = false ∧ t.pc = 0x8004)) = true := by decide

/-- LOAD of 0x0000 at both values of LOAD_UPDATES_ZN (section 3). -/
theorem test_load_updates_zn :
    nextIs (loadWith true .r1 (.dir 0x2000) (start (regs 0 7 0 0) (zncv 0 1 1 1) [] []))
      (fun t => decide (t.regs.r1 = 0 ∧ t.flags = zncv 1 0 1 1)) = true ∧
    nextIs (loadWith false .r1 (.dir 0x2000) (start (regs 0 7 0 0) (zncv 0 1 1 1) [] []))
      (fun t => decide (t.regs.r1 = 0 ∧ t.flags = zncv 0 1 1 1)) = true := by decide

theorem test_store_base_rd_data_rs :
    nextIs (step (start (regs 0 0 0x3000 0x1122) (zncv 0 0 0 0) [] [0x234C])) (fun t => decide (m16 t 0x3000 = 0x1122 ∧ t.byte 0x3000 = 0x22 ∧ t.pc = 0x8002)) = true := by decide

theorem test_store_straddling_window :
    raises (step (start (regs 0 0x1234 0 0) (zncv 0 0 0 0) [] [0x2204, 0xEFFF])) (.dataRegion 0xEFFF) = true := by decide

theorem test_add_carry_zero :
    nextIs (step (start (regs 0xFFF6 0 0 0) (zncv 0 0 0 0) [] [0x2900, 0x000A])) (fun t => decide (t.regs.r0 = 0 ∧ t.flags = zncv 1 0 1 0 ∧ t.pc = 0x8004)) = true := by decide

theorem test_add_memory_overflow :
    nextIs (step (start (regs 0x7FFF 0 0 0) (zncv 0 0 0 0) [(0x0100, 0x01)] [0x2A00, 0x0100])) (fun t => decide (t.regs.r0 = 0x8000 ∧ t.flags = zncv 0 1 0 1)) = true := by decide

theorem test_sub_memory_borrow :
    nextIs (step (start (regs 5 0x0100 0 0) (zncv 0 0 0 0) [(0x0100, 0x07)] [0x3304])) (fun t => decide (t.regs.r0 = 0xFFFE ∧ t.flags = zncv 0 1 0 0 ∧ t.pc = 0x8002)) = true := by decide

theorem test_sub_overflow_and_borrow :
    nextIs (step (start (regs 0x7FFF 0xFFFF 0 0) (zncv 0 0 0 0) [] [0x3004])) (fun t => decide (t.regs.r0 = 0x8000 ∧ t.flags = zncv 0 1 0 1)) = true := by decide

theorem test_and_keeps_carry :
    nextIs (step (start (regs 0xAB41 0 0 0) (zncv 1 1 1 1) [] [0x3900, 0x00FF])) (fun t => decide (t.regs.r0 = 0x0041 ∧ t.flags = zncv 0 0 1 0)) = true := by decide

theorem test_or :
    nextIs (step (start (regs 0xF000 0x000F 0 0) (zncv 0 0 1 1) [] [0x4004])) (fun t => decide (t.regs.r0 = 0xF00F ∧ t.flags = zncv 0 1 1 0)) = true := by decide

theorem test_xor_self :
    nextIs (step (start (regs 0x1234 0 0 0) (zncv 0 1 0 1) [] [0x4800])) (fun t => decide (t.regs.r0 = 0 ∧ t.flags = zncv 1 0 0 0)) = true := by decide

theorem test_cmp_signed_overflow :
    nextIs (step (start (regs 0x8000 0x7FFF 0 0) (zncv 0 0 0 0) [] [0x5004])) (fun t => decide (t.regs.r0 = 0x8000 ∧ t.flags = zncv 0 0 1 1)) = true := by decide

theorem test_cmp_relative_operand :
    nextIs (step (start (regs 0x1234 0 0 0) (zncv 0 0 0 0) [] [0x5500, 0x0000, 0x1234])) (fun t => decide (t.flags = zncv 1 0 1 0)) = true := by decide

theorem test_shl_no_extension :
    nextIs (step (start (regs 0x4000 0 0 0) (zncv 0 0 0 0) [] [0x5E1C])) (fun t => decide (t.regs.r0 = 0x8000 ∧ t.flags = zncv 0 1 0 0 ∧ t.pc = 0x8002)) = true := by decide

theorem test_shl_carry :
    nextIs (step (start (regs 0x8001 0 0 0) (zncv 0 0 0 1) [] [0x5800])) (fun t => decide (t.regs.r0 = 2 ∧ t.flags = zncv 0 0 1 0)) = true := by decide

theorem test_shr_carry :
    nextIs (step (start (regs 0 0x8001 0 0) (zncv 0 1 0 1) [] [0x6020])) (fun t => decide (t.regs.r1 = 0x4000 ∧ t.flags = zncv 0 0 1 0)) = true := by decide

theorem test_jmp_relative_wraps :
    nextIs (step (start (regs 0 0 0 0) (zncv 0 0 0 0) [] [0x6D00, 0x8000])) (fun t => decide (t.pc = 0x0004)) = true := by decide

theorem test_jmp_to_itself :
    nextIs (step (start (regs 0 0 0 0) (zncv 0 0 0 0) [] [0x6D00, 0xFFFC])) (fun t => decide (t.pc = 0x8000)) = true := by decide

theorem test_jz_taken :
    nextIs (step (start (regs 0 0 0 0) (zncv 1 0 0 0) [] [0x7500, 0x0010])) (fun t => decide (t.pc = 0x8014)) = true := by decide

theorem test_jz_not_taken :
    nextIs (step (start (regs 0 0 0 0) (zncv 0 1 1 1) [] [0x7500, 0x0010])) (fun t => decide (t.pc = 0x8004)) = true := by decide

theorem test_jnz_taken_backward :
    nextIs (step (start (regs 0 0 0 0) (zncv 0 0 0 0) [] [0x7D00, 0xFFF6])) (fun t => decide (t.pc = 0x7FFA)) = true := by decide

theorem test_jnz_not_taken :
    nextIs (step (start (regs 0 0 0 0) (zncv 1 0 0 0) [] [0x7D00, 0xFFF6])) (fun t => decide (t.pc = 0x8004)) = true := by decide

theorem test_jc_taken :
    nextIs (step (start (regs 0 0 0 0) (zncv 0 0 1 0) [] [0x8500, 6])) (fun t => decide (t.pc = 0x800A)) = true := by decide

theorem test_jc_not_taken :
    nextIs (step (start (regs 0 0 0 0) (zncv 1 1 0 1) [] [0x8500, 6])) (fun t => decide (t.pc = 0x8004)) = true := by decide

theorem test_jnc_taken :
    nextIs (step (start (regs 0 0 0 0) (zncv 0 0 0 0) [] [0x8D00, 6])) (fun t => decide (t.pc = 0x800A)) = true := by decide

theorem test_jnc_not_taken :
    nextIs (step (start (regs 0 0 0 0) (zncv 0 0 1 0) [] [0x8D00, 6])) (fun t => decide (t.pc = 0x8004)) = true := by decide

theorem test_jn_taken :
    nextIs (step (start (regs 0 0 0 0) (zncv 0 1 0 0) [] [0x9500, 6])) (fun t => decide (t.pc = 0x800A)) = true := by decide

theorem test_jn_not_taken :
    nextIs (step (start (regs 0 0 0 0) (zncv 1 0 1 1) [] [0x9500, 6])) (fun t => decide (t.pc = 0x8004)) = true := by decide

theorem test_call_offset :
    nextIs (step { start (regs 0 0x8100 0 0) (zncv 0 0 0 0) [] [0x9C04, 2] with sp := 0x7000 })
      (fun t => decide (t.sp = 0x6FFE ∧ m16 t 0x6FFE = 0x8004 ∧ t.pc = 0x8102)) = true := by decide

theorem test_call_stack_outside :
    raises (step { start (regs 0 0 0 0) (zncv 0 0 0 0) [] [0x9A00, 0x8100] with sp := 1 }) (.dataRegion 0xFFFF) = true := by
  decide

theorem test_ret :
    nextIs (step { start (regs 0 0 0 0) (zncv 0 0 0 0) [(0x7FFD, 0x08), (0x7FFE, 0x80)] [0xA000] with sp := 0x7FFD })
      (fun t => decide (t.pc = 0x8008 ∧ t.sp = 0x7FFF)) = true := by decide

theorem test_push :
    nextIs (step (start (regs 0 0 0xABCD 0) (zncv 0 0 0 0) [] [0xA808]))
      (fun t => decide (t.sp = 0x7FFD ∧ t.byte 0x7FFD = 0xCD ∧ t.byte 0x7FFE = 0xAB ∧ t.pc = 0x8002)) = true := by decide

theorem test_push_into_the_window :
    nextIs (step { start (regs 0x0041 0 0 0) (zncv 0 0 0 0) [] [0xA800] with sp := 0xF002 })
      (fun t => decide (t.sp = 0xF000 ∧ t.ioTrace = [.write 0xF000 0x0041] ∧ m16 t 0xEFFE = 0)) = true := by decide

theorem test_pop :
    nextIs (step { start (regs 0 0 0 0) (zncv 1 1 1 1) [(0x7FFD, 0xCD), (0x7FFE, 0xAB)] [0xB060] with sp := 0x7FFD })
      (fun t => decide (t.regs.r3 = 0xABCD ∧ t.sp = 0x7FFF ∧ t.flags = zncv 1 1 1 1)) = true := by decide

/-- The high byte of the popped word is the low byte of the POP's own word. -/
theorem test_pop_on_the_empty_stack :
    nextIs (step (start (regs 0 0 0 0) (zncv 0 0 0 0) [(0x7FFF, 0x5A)] [0xB000]))
      (fun t => decide (t.regs.r0 = 0x005A ∧ t.sp = 0x8001)) = true := by decide

/-- Whatever the environment answers, all 16 bits reach the register and the trace. -/
theorem test_in_register :
    ∃ t, step (start (regs 0 1 0 0) (zncv 0 0 0 0) [] [0xB844]) = .next t ∧ t.regs.r2 = Config.ioRead [] 0xF001 ∧
      t.pc = 0x8002 ∧ t.ioTrace = [.read 0xF001 t.regs.r2] := ⟨_, rfl, rfl, rfl, rfl⟩

theorem test_in_port_out_of_range :
    raises (step (start (regs 7 0xF001 0 0) (zncv 0 0 0 0) [] [0xB804])) (.ioPortRange 0xF001) = true := by decide

theorem test_out_immediate :
    nextIs (step (start (regs 0 0x1248 0 0) (zncv 0 0 0 0) [] [0xC104, 0]))
      (fun t => decide (t.ioTrace = [.write 0xF000 0x1248] ∧ printed t.ioTrace = [0x48] ∧ t.pc = 0x8004)) = true := by decide

theorem test_out_register :
    nextIs (step (start (regs 0 0x0069 0 0) (zncv 0 0 0 0) [] [0xC044]))
      (fun t => decide (t.ioTrace = [.write 0xF000 0x0069] ∧ t.pc = 0x8002)) = true := by decide

/-- A fetch may straddle RAM and the program area; the last place a two-word instruction fits is 0xEFFC; a
two-word instruction at 0xEFFE faults on its extension word (section 8). -/
theorem test_fetch_edges :
    nextIs (step { State.reset with pc := 0x7FFF, mem := [(0x8000, 0x08)] }) (fun t => t.halted) = true ∧
    nextIs (step { State.reset with pc := 0xEFFC, mem := [(0xEFFD, 0x11), (0xEFFE, 0x07)] })
      (fun t => decide (t.regs.r0 = 7 ∧ t.pc = 0xF000)) = true ∧
    raises (step { State.reset with pc := 0xEFFE, mem := [(0xEFFF, 0x11)] }) (.fetchRegion 0xF000) = true ∧
    raises (step { State.reset with pc := 0xEFFF }) (.fetchRegion 0xEFFF) = true ∧
    raises (step { State.reset with pc := 0xFFFF }) (.fetchRegion 0xFFFF) = true := by decide

/-- A halted state and a faulted state have no step; a raised fault is recorded and the state is otherwise as before
the step (rules R131, R200, R203). -/
theorem test_ended_states :
    step { State.reset with halted := true } = .fault .stuckHalted ∧
    step { State.reset with fault := some (.unusedBits 1) } = .fault (.stuckFaulted (.unusedBits 1)) ∧
    advance { State.reset with pc := 0xF000 } = { State.reset with pc := 0xF000, fault := some (.fetchRegion 0xF000) } :=
  ⟨rfl, rfl, rfl⟩

/-- Memory keeps its canonical form: a byte written in order, and a zero written over it. -/
theorem test_memory_is_canonical :
    (State.reset.mem.wf) ∧ Memory.write [(2, 5), (9, 1)] 4 7 = [(2, 5), (4, 7), (9, 1)] ∧
    Memory.write [(2, 5), (4, 7)] 4 0 = [(2, 5)] ∧ Memory.write [(2, 5)] 2 6 = [(2, 6)] := by decide

/-! ## Witnesses: every obligation with hypotheses has inputs that meet them -/

/-- ADD R0, R1 at the pc. -/
def addState : State := start (regs 1 2 0x3000 0) (zncv 0 0 0 0) [] [0x2804]

theorem witness_DecodedBytesHoldTheInstruction :
    decode [0x00, 0x29, 0x0A, 0x00, 0x77] = .ok (.add .r0 (.imm 10), [0x77]) := rfl

theorem witness_DecodeChecksComeInOrder :
    (fieldsOf 0xFFFF).unusedClear = false ∧
    ((fieldsOf 0xC800).unusedClear = true ∧ (fieldsOf 0xC800).opcodeAssigned = false) ∧
    ((fieldsOf 0x1700).unusedClear = true ∧ (fieldsOf 0x1700).opcodeAssigned = true ∧
      (fieldsOf 0x1700).modeNotReserved = false) ∧
    ((fieldsOf 0x1900).unusedClear = true ∧ (fieldsOf 0x1900).opcodeAssigned = true ∧
      (fieldsOf 0x1900).modeNotReserved = true ∧ (fieldsOf 0x1900).modeAdmitted = false) ∧
    ((fieldsOf 0x2880).unusedClear = true ∧ (fieldsOf 0x2880).opcodeAssigned = true ∧
      (fieldsOf 0x2880).modeNotReserved = true ∧ (fieldsOf 0x2880).modeAdmitted = true ∧
      ((fieldsOf 0x2880).rdNamesRegister && (fieldsOf 0x2880).rsNamesRegister) = false) := by decide

theorem witness_IgnoredFieldsDoNotMatter :
    opClass (fieldsOf 0x291C).opcode = some .value ∧ (fieldsOf 0x291C).opcode = (fieldsOf 0x2900).opcode ∧
    (fieldsOf 0x291C).unused = 0 ∧ (fieldsOf 0x2900).unused = 0 ∧ (fieldsOf 0x291C).mode = (fieldsOf 0x2900).mode ∧
    (fieldsOf 0x291C).rd = (fieldsOf 0x2900).rd ∧ OpClass.usesRs .value (fieldsOf 0x291C).mode = false ∧
    (fieldsOf 0x291C).rs ≠ (fieldsOf 0x2900).rs := by decide

theorem witness_StepRunsTheDecodedInstruction :
    Running addState ∧ BytesAt addState addState.pc [0x04, 0x28] ∧ decode [0x04, 0x28] = .ok (.add .r0 (.reg .r1), []) :=
  ⟨⟨rfl, rfl⟩, ⟨by decide, by decide, by decide, by decide, trivial⟩, rfl⟩

/-- The pc at 0xEFFF, the first address that faults, and a two-word instruction at 0xEFFE. -/
def edgeState : State := { State.reset with pc := 0xEFFE, mem := [(0xEFFF, 0x11)] }

theorem witness_FetchOutsidePlainMemoryFaults :
    (Running { State.reset with pc := 0xEFFF } ∧ 0xEFFF ≤ ({ State.reset with pc := 0xEFFF } : State).pc.toNat) ∧
    (Running edgeState ∧ edgeState.pc.toNat < 0xEFFF ∧
      (fieldsOf (wordOfBytes (edgeState.byte edgeState.pc) (edgeState.byte (edgeState.pc + 1)))).wellFormed = true ∧
      (fieldsOf (wordOfBytes (edgeState.byte edgeState.pc) (edgeState.byte (edgeState.pc + 1)))).hasExtension = true ∧
      0xEFFF ≤ (edgeState.pc + 2).toNat) := by decide

/-- A machine with the base word `w` at the pc. -/
def wordState (w : Word) : State := start (regs 0 0 0 0) (zncv 0 0 0 0) [] [w]

/-- The premises of RejectedWordFaults at the machine with `w` at the pc. -/
abbrev RejectionPremises (w : Word) : Prop :=
  Running (wordState w) ∧ (wordState w).pc.toNat < 0xEFFF ∧
    w = wordOfBytes ((wordState w).byte (wordState w).pc) ((wordState w).byte ((wordState w).pc + 1))

theorem witness_RejectedWordFaults :
    (RejectionPremises 0xFFFF ∧ decodeBase 0xFFFF = .error .unusedBits) ∧
    (RejectionPremises 0xC800 ∧ decodeBase 0xC800 = .error .reservedOpcode) ∧
    (RejectionPremises 0x1700 ∧ decodeBase 0x1700 = .error .reservedMode) ∧
    (RejectionPremises 0x1900 ∧ decodeBase 0x1900 = .error .unsupportedMode) ∧
    (RejectionPremises 0x2880 ∧ decodeBase 0x2880 = .error .reservedRegister) :=
  ⟨⟨by decide, rfl⟩, ⟨by decide, rfl⟩, ⟨by decide, rfl⟩, ⟨by decide, rfl⟩, by decide, rfl⟩

theorem witness_FaultsArePreciseAndFinal : step (wordState 0xC800) = .fault (.raised (.reservedOpcode 0xC800)) := rfl

theorem witness_ExecutionFaultsAsTabled :
    exec (.inPort .r0 (.imm 0x0100)) State.reset = .fault (.raised (.ioPortRange 0x0100)) ∧
    exec (.load .r0 (.dir 0xEFFF)) State.reset = .fault (.raised (.dataRegion 0xEFFF)) ∧
    exec (.call (.dir 0)) { State.reset with sp := 1 } = .fault (.raised (.dataRegion 0xFFFF)) ∧
    exec .ret { State.reset with sp := 0xF100 } = .fault (.raised (.dataRegion 0xF100)) := ⟨rfl, rfl, rfl, rfl⟩

/-- A running machine that stores to plain memory, with a nonempty memory and trace. -/
def storeState : State :=
  { start (regs 0 0 0x3000 0x1122) (zncv 0 0 0 0) [] [0x234C] with ioTrace := [.write 0xF000 0x0041] }

/-- A running machine that stores R1 to the last window register. -/
def windowState : State := start (regs 0 0x1234 0 0) (zncv 0 0 0 0) [] [0x2204, 0xF0FF]

theorem witness_StepKeepsTheInvariant : Inv storeState ∧ ∃ t, step storeState = .next t ∧ m16 t 0x3000 = 0x1122 :=
  ⟨by decide, _, rfl, by decide⟩

theorem witness_ResetHasTheInvariant : Memory.wf [(0x8000, 0x04), (0x8001, 0x28)] := by decide

/-- The premise of OneDataAccessPerStep at a store to plain memory, a store to the window and an OUT, which has no store
address: one witness a clause. -/
theorem witness_OneDataAccessPerStep :
    (∃ t, step storeState = .next t ∧
      fetchInstr storeState = .ok (.store (.ind .r2) .r3, 0x8002) ∧
      storeAddress (.store (.ind .r2) .r3) (storeState.setPc 0x8002) = some 0x3000 ∧ InPlain 0x3000) ∧
    (∃ t, step windowState = .next t ∧
      fetchInstr windowState = .ok (.store (.dir 0xF0FF) .r1, 0x8004) ∧
      storeAddress (.store (.dir 0xF0FF) .r1) (windowState.setPc 0x8004) = some 0xF0FF ∧ InWindow 0xF0FF) ∧
    ∃ t, step (start (regs 0 0x48 0 0) (zncv 0 0 0 0) [] [0xC104, 0]) = .next t ∧ t.ioTrace = [.write 0xF000 0x48] :=
  ⟨⟨_, rfl, rfl, rfl, by decide⟩, ⟨_, rfl, rfl, rfl, by decide⟩, _, rfl, rfl⟩

theorem witness_StepKeepsRunBookkeeping :
    (∃ t, step storeState = .next t) ∧ (∃ t, exec .nop State.reset = .next t) ∧ Instr.nop ≠ .halt ∧
    ∃ t, exec .halt State.reset = .next t := ⟨⟨_, rfl⟩, ⟨_, rfl⟩, by decide, _, rfl⟩

theorem witness_OnlyTheDestinationRegisterChanges :
    (∃ t, exec (.add .r0 (.imm 5)) addState = .next t ∧ t.reg .r0 = 6) ∧ destination (.add .r0 (.imm 5)) ≠ some .r1 :=
  ⟨⟨_, rfl, by decide⟩, by decide⟩

/-- One witness a clause of FlagsChangeOnlyAsTabled: MOV, AND, SHL, LOAD, and LOAD with LOAD_UPDATES_ZN false. -/
theorem witness_FlagsChangeOnlyAsTabled :
    ((∃ t, exec (.mov .r0 (.imm 0)) addState = .next t) ∧ writesNoFlag (.mov .r0 (.imm 0)) = true) ∧
    (∃ t, exec (.and .r0 (.imm 0)) addState = .next t) ∧ (∃ t, exec (.shl .r0) addState = .next t) ∧
    (∃ t, exec (.load .r0 (.dir 0x8000)) addState = .next t) ∧
    ∃ u, loadWith false .r0 (.dir 0x8000) addState = .next u :=
  ⟨⟨⟨_, rfl⟩, rfl⟩, ⟨_, rfl⟩, ⟨_, rfl⟩, ⟨_, rfl⟩, _, rfl⟩

theorem witness_OnlyControlTransfersWritePc :
    (∃ t, exec .halt State.reset = .next t) ∧ transfersControl .halt = false := ⟨⟨_, rfl⟩, rfl⟩

theorem witness_OnlyTheStackInstructionsUseSp :
    usesStack (.store (.ind .r2) .r3) = false ∧ ∃ t, exec (.store (.ind .r2) .r3) storeState = .next t := ⟨rfl, _, rfl⟩

theorem witness_OtherInstructionsKeepMemory :
    (∃ t, exec (.outPort (.imm 0) .r1) addState = .next t) ∧ storeAddress (.outPort (.imm 0) .r1) addState = none :=
  ⟨⟨_, rfl⟩, rfl⟩

/-- A store to plain memory, a store to the last window address, and a push at 0xF000. -/
theorem witness_StoresTouchOnlyTheirWord :
    ((∃ t, exec (.store (.ind .r2) .r3) storeState = .next t) ∧
      storeAddress (.store (.ind .r2) .r3) storeState = some 0x3000) ∧
    ((∃ t, exec (.store (.dir 0xF0FF) .r3) storeState = .next t) ∧
      storeAddress (.store (.dir 0xF0FF) .r3) storeState = some 0xF0FF ∧ InWindow 0xF0FF) ∧
    ((∃ t, exec (.push .r0) { storeState with sp := 0xF002 } = .next t) ∧
      storeAddress (.push .r0) { storeState with sp := 0xF002 } = some 0xF000 ∧ InWindow 0xF000) :=
  ⟨⟨⟨_, rfl⟩, rfl⟩, ⟨⟨_, rfl⟩, rfl, by decide⟩, ⟨_, rfl⟩, rfl, by decide⟩

/-- The last plain word; memRead there answers and writes land in both bytes. -/
theorem witness_WordsAreLittleEndian :
    InPlain 0xEFFE ∧ ∃ t, memWrite 0xEFFE 0x1357 State.reset = .ok t ∧ t.byte 0xEFFE = 0x57 ∧ t.byte 0xEFFF = 0x13 :=
  ⟨by decide, _, rfl, by decide, by decide⟩

/-- Both sides of DataAccessFaultsExactly at every boundary of the memory map. -/
theorem witness_DataAccessFaultsExactly :
    memRead 0xEFFE State.reset = .ok (0, State.reset) ∧ memRead 0xEFFF State.reset = .error (.dataRegion 0xEFFF) ∧
    memRead 0xF100 State.reset = .error (.dataRegion 0xF100) ∧ memRead 0xFFFF State.reset = .error (.dataRegion 0xFFFF) ∧
    (∃ t, memWrite 0xF000 1 State.reset = .ok t) ∧ (∃ t, memWrite 0xF0FF 1 State.reset = .ok t) ∧
    memWrite 0xF100 1 State.reset = .error (.dataRegion 0xF100) ∧
    fetch16 0xEFFE State.reset = .ok 0 ∧ fetch16 0xEFFF State.reset = .error (.fetchRegion 0xEFFF) ∧
    fetch16 0xF000 State.reset = .error (.fetchRegion 0xF000) :=
  ⟨rfl, rfl, rfl, rfl, ⟨_, rfl⟩, ⟨_, rfl⟩, rfl, rfl, rfl, rfl⟩

theorem witness_WindowAccessIsOneTransaction :
    InWindow 0xF000 ∧ InWindow 0xF0FF := by decide

theorem witness_StoreIsSeenByTheNextFetch :
    (∃ t, exec (.store (.rel 0) .r1) { addState with pc := 0x8004 } = .next t) ∧
    InPlain (effectiveAddress (.rel 0) { addState with pc := 0x8004 }) := ⟨⟨_, rfl⟩, by decide⟩

theorem witness_OutputRegisterPrintsTheLowByte :
    ((0 : Word) = portNumber (.reg .r3) addState ∧ ∃ t, exec (.outPort (.reg .r3) .r1) addState = .next t) ∧
    ((0xF000 + 0x00FF : Word) = effectiveAddress (.dir 0xF0FF) addState ∧ (0x00FF : Word).toNat ≤ 0x00FF ∧
      ∃ t, exec (.store (.dir 0xF0FF) .r1) addState = .next t) :=
  ⟨⟨rfl, _, rfl⟩, rfl, by decide, _, rfl⟩

/-- 0xEFFF, the address below 0 and 0xF100 are not accessible. -/
theorem witness_InaccessibleOperandsFault :
    ¬ Accessible (effectiveAddress (.dir 0xEFFF) State.reset) ∧
    ¬ Accessible (({ State.reset with sp := 1 } : State).sp - 2) ∧
    ¬ Accessible ({ State.reset with sp := 0xF100 } : State).sp := by decide

/-- A readable operand of every kind, at the last plain word and at both ends of the window: the premise of MOV, ADD,
SUB, CMP, AND, OR and XOR. -/
theorem witness_operand_readable :
    OperandReadable (.reg .r1) State.reset ∧ OperandReadable (.imm 7) State.reset ∧
    OperandReadable (.mem (.dir 0xEFFE)) State.reset ∧ OperandReadable (.mem (.dir 0xF000)) State.reset ∧
    OperandReadable (.mem (.dir 0xF0FF)) State.reset :=
  ⟨trivial, trivial, .inl (by decide), .inr (by decide), .inr (by decide)⟩

/-- The premises of LOAD and STORE. -/
theorem witness_LoadReadsMemory :
    Accessible (effectiveAddress (.dir 0xEFFE) State.reset) ∧
    (0 : Word) = wordAt (effectiveAddress (.dir 0xEFFE) State.reset) State.reset ∧
    Accessible (effectiveAddress (.dir 0xF0FF) State.reset) := by decide

/-- The premises of ADD and SUB: 0xFFFF + 0x0001 and 0x0000 - 0x0001, and of CMP with them. -/
theorem witness_arithmetic_results :
    (0x0000 : Word).toNat = ((0xFFFF : Word).toNat + (0x0001 : Word).toNat) % 65536 ∧
    ((0xFFFF : Word).toNat : Int) = (((0x0000 : Word).toNat : Int) - (0x0001 : Word).toNat) % 65536 := by decide

theorem witness_OverflowIsSignedRange :
    (∃ t, exec (.add .r0 (.imm 0x7FFF)) addState = .next t ∧ t.flags.v = true) ∧
    (∃ t, exec (.sub .r0 (.imm 0x8000)) addState = .next t ∧ t.flags.v = true) ∧
    ∃ t, exec (.cmp .r0 (.imm 0x8000)) addState = .next t ∧ t.flags.v = true :=
  ⟨⟨_, rfl, rfl⟩, ⟨_, rfl, rfl⟩, _, rfl, rfl⟩

/-- The premises of AND, OR and XOR on 0x0006 and 0x0003. -/
theorem witness_LogicResultAndFlags :
    (∀ k < 16, (0x0002 : Word).getLsbD k = ((0x0006 : Word).getLsbD k && (0x0003 : Word).getLsbD k)) ∧
    (∀ k < 16, (0x0007 : Word).getLsbD k = ((0x0006 : Word).getLsbD k || (0x0003 : Word).getLsbD k)) ∧
    ∀ k < 16, (0x0005 : Word).getLsbD k = ((0x0006 : Word).getLsbD k ^^ (0x0003 : Word).getLsbD k) := by decide

theorem witness_ShiftResultAndFlags :
    (0x0002 : Word).toNat = (0x8001 : Word).toNat * 2 % 65536 ∧ (0x4000 : Word).toNat = (0x8001 : Word).toNat / 2 := by decide

theorem witness_ZeroAndNegativeComeFromTheResult :
    (∀ i ∈ [Instr.add .r0 (.imm 5), .sub .r0 (.imm 5), .and .r0 (.imm 5), .or .r0 (.imm 5), .xor .r0 (.imm 5), .shl .r0,
      .shr .r0], nextIs (exec i addState) (fun _ => true) = true) ∧ ∃ t, exec (.cmp .r0 (.imm 1)) addState = .next t :=
  ⟨by decide, _, rfl⟩

theorem witness_CompareThenBranch :
    (∃ t, exec (.cmp .r0 (.imm 1)) addState = .next t) ∧ (1 : Word) = addState.reg .r0 ∧
    (1 : Word) = operandValue (.imm 1) addState := ⟨⟨_, rfl⟩, rfl, rfl⟩

/-- A machine with the words `ws` at the pc and the given flags. -/
def jumpState (ws : List Word) (f : Flags) : State := start (regs 0 0 0 0) f [] ws

/-- One witness a clause, two of them with ignored fields set or in mode 011. -/
theorem witness_NotTakenJumpSkipsItsExtensionWord :
    (BytesAt (jumpState [0x75FC, 8] (zncv 0 1 1 1)) 0x8000 [0xFC, 0x75, 0x08, 0x00] ∧
      decode [0xFC, 0x75, 0x08, 0x00] = .ok (.jz (.rel 8), [])) ∧
    (BytesAt (jumpState [0x7A00, 8] (zncv 1 0 0 0)) 0x8000 [0x00, 0x7A, 0x08, 0x00] ∧
      decode [0x00, 0x7A, 0x08, 0x00] = .ok (.jnz (.dir 8), [])) ∧
    (BytesAt (jumpState [0x8500, 8] (zncv 1 1 0 1)) 0x8000 [0x00, 0x85, 0x08, 0x00] ∧
      decode [0x00, 0x85, 0x08, 0x00] = .ok (.jc (.rel 8), [])) ∧
    (BytesAt (jumpState [0x8C04, 8] (zncv 0 0 1 0)) 0x8000 [0x04, 0x8C, 0x08, 0x00] ∧
      decode [0x04, 0x8C, 0x08, 0x00] = .ok (.jnc (.off .r1 8), [])) ∧
    (BytesAt (jumpState [0x9304] (zncv 1 0 1 1)) 0x8000 [0x04, 0x93] ∧ decode [0x04, 0x93] = .ok (.jn (.ind .r1), [])) ∧
    Running (jumpState [0x75FC, 8] (zncv 0 1 1 1)) :=
  ⟨⟨⟨by decide, by decide, by decide, by decide, by decide, by decide, by decide, by decide, trivial⟩, rfl⟩, ⟨⟨by decide, by decide, by decide, by decide, by decide, by decide, by decide, by decide, trivial⟩, rfl⟩, ⟨⟨by decide, by decide, by decide, by decide, by decide, by decide, by decide, by decide, trivial⟩, rfl⟩, ⟨⟨by decide, by decide, by decide, by decide, by decide, by decide, by decide, by decide, trivial⟩, rfl⟩,
    ⟨⟨by decide, by decide, by decide, by decide, trivial⟩, rfl⟩, rfl, rfl⟩

/-- At offset 0 and at offset 0xFFFC, for a jump and for a LOAD. -/
theorem witness_RelativeOffsetCountsFromTheNextInstruction :
    (BytesAt (jumpState [0x6D00, 0] (zncv 0 0 0 0)) 0x8000 [0x00, 0x6D, 0x00, 0x00] ∧
      decode [0x00, 0x6D, 0x00, 0x00] = .ok (.jmp (.rel 0), []) ∧ memoryOperand (.jmp (.rel 0)) = some (.rel 0)) ∧
    (BytesAt (jumpState [0x1D00, 0xFFFC] (zncv 0 0 0 0)) 0x8000 [0x00, 0x1D, 0xFC, 0xFF] ∧
      decode [0x00, 0x1D, 0xFC, 0xFF] = .ok (.load .r0 (.rel 0xFFFC), []) ∧
      memoryOperand (.load .r0 (.rel 0xFFFC)) = some (.rel 0xFFFC)) :=
  ⟨⟨⟨by decide, by decide, by decide, by decide, by decide, by decide, by decide, by decide, trivial⟩, rfl, rfl⟩, ⟨by decide, by decide, by decide, by decide, by decide, by decide, by decide, by decide, trivial⟩, rfl, rfl⟩

/-- The premises of CALL and PUSH (and of the two round trips): a stack in RAM, and one that pushes at 0xF000. -/
theorem witness_push_accessible :
    InPlain (State.reset.sp - 2) ∧ Accessible (State.reset.sp - 2) ∧
    Accessible (({ State.reset with sp := 0xF002 } : State).sp - 2) := by decide

/-- The premises of RET and POP: the last plain word, and 0xF000. -/
theorem witness_pop_accessible :
    Accessible ({ State.reset with sp := 0xEFFE } : State).sp ∧
    Accessible ({ State.reset with sp := 0xF000 } : State).sp := by decide

/-- The premises of the four port statements, at port 0xFF and at 0x100. -/
theorem witness_ports :
    ((0x00FF : Word) = portNumber (.imm 0x00FF) State.reset ∧ (0x00FF : Word).toNat ≤ 0x00FF ∧
      (0xF0FF : Word) = 0xF000 + 0x00FF) ∧
    effectiveAddress (.dir 0xF0FF) State.reset = 0xF000 + portNumber (.imm 0x00FF) State.reset ∧
    0x00FF < (portNumber (.imm 0x0100) State.reset).toNat := by decide

end Sys2Proof.Tests
end

/-! PROOFS. The family 10_state.md: what leaves the pc and SP alone, what reads neither SP nor V, FLAGS as a value, and the fetch's advance of the pc. -/

namespace Sys2Proof.Machine

open Sys2Proof.Claims

/-! ## What a data access leaves unchanged -/

/-- `t` differs from `s` in plain memory and the trace alone, as after a data access. -/
structure SameCore (s t : State) : Prop where
  regs : t.regs = s.regs
  pc : t.pc = s.pc
  sp : t.sp = s.sp
  flags : t.flags = s.flags

theorem memRead_sameCore {a v : Word} {s t : State} (h : memRead a s = .ok (v, t)) : SameCore s t := by
  rcases memRead_state h with rfl | rfl <;> exact ⟨rfl, rfl, rfl, rfl⟩

theorem memWrite_sameCore {a v : Word} {s t : State} (h : memWrite a v s = .ok t) : SameCore s t := by
  rcases memWrite_ok h with ⟨_, rfl⟩ | ⟨_, rfl⟩ <;> exact ⟨rfl, rfl, rfl, rfl⟩

theorem valueOperand_sameCore {o : Operand} {s t : State} {v : Word} (h : valueOperand o s = .ok (v, t)) :
    SameCore s t := by
  rcases valueOperand_state h with rfl | ⟨_, _, rfl⟩ <;> exact ⟨rfl, rfl, rfl, rfl⟩

/-- The pc and SP of every state an instruction answers (10_state.md rules R25, R32). -/
theorem exec_keeps_pc_sp {i : Instr} {s t : State} (h : exec i s = .next t) :
    (transfersControl i = false → t.pc = s.pc) ∧ (usesStack i = false → t.sp = s.sp) := by
  cases i with
  | nop | halt | shl | shr => obtain rfl : t = _ := exec_next h; exact ⟨fun _ => rfl, fun _ => rfl⟩
  | mov | add | sub | and | or | xor | cmp =>
    obtain ⟨v, u, hu, rfl⟩ := exec_next h
    exact ⟨fun _ => (valueOperand_sameCore hu).pc, fun _ => (valueOperand_sameCore hu).sp⟩
  | load =>
    obtain ⟨v, u, hu, rfl⟩ := exec_next h
    exact ⟨fun _ => (memRead_sameCore hu).pc, fun _ => (memRead_sameCore hu).sp⟩
  | store => have hu := memWrite_sameCore (exec_next h); exact ⟨fun _ => hu.pc, fun _ => hu.sp⟩
  | jmp => obtain rfl : t = _ := exec_next h; exact ⟨nofun, fun _ => rfl⟩
  | jz | jnz | jc | jnc | jn => exact ⟨nofun, fun _ => by rcases exec_next h with rfl | rfl <;> rfl⟩
  | call | ret => exact ⟨nofun, nofun⟩
  | push =>
    obtain ⟨u, hu, rfl⟩ := exec_next h
    exact ⟨fun _ => (memWrite_sameCore hu).pc, nofun⟩
  | pop =>
    obtain ⟨v, u, hu, rfl⟩ := exec_next h
    exact ⟨fun _ => (memRead_sameCore hu).pc, nofun⟩
  | inPort =>
    obtain ⟨v, u, hu, rfl, _⟩ := exec_next h
    exact ⟨fun _ => (memRead_sameCore hu).pc, fun _ => (memRead_sameCore hu).sp⟩
  | outPort => have hu := memWrite_sameCore (exec_next h).1; exact ⟨fun _ => hu.pc, fun _ => hu.sp⟩

/-! ## Overwriting what an instruction does not read

`e` overwrites a component of the state. An instruction does not read that component when overwriting it before the
instruction makes no difference once it is overwritten in the outcome as well. -/

/-- The outcome with `e` applied to its next state. -/
def mapNext (e : State → State) : Result → Result
  | .next t => .next (e t)
  | .fault f => .fault f
  | .refused r => .refused r

/-- An instruction that uses a word read does not read what `e` overwrites when the read and what it makes of the word
do not. -/
theorem mapNext_finishWith {e : State → State} {x y : Except FaultReason (Word × State)}
    {k k' : Word → State → State} (hx : y = x.map (Prod.map id e)) (hk : ∀ v u, e (k' v (e u)) = e (k v u)) :
    mapNext e (finishWith y k') = mapNext e (finishWith x k) := by
  subst hx
  rcases x with r | ⟨v, u⟩
  · rfl
  · exact congrArg Host.Outcome.next (hk v u)

/-- `e` overwrites a component that no operand form and no data access reads or writes. -/
structure Unseen (e : State → State) : Prop where
  idem : ∀ s, e (e s) = e s
  regs : ∀ s, (e s).regs = s.regs
  pc : ∀ s, (e s).pc = s.pc
  mem : ∀ s, (e s).mem = s.mem
  ioTrace : ∀ s, (e s).ioTrace = s.ioTrace
  setPc : ∀ s v, (e s).setPc v = e (s.setPc v)
  setMem : ∀ s m, (e s).setMem m = e (s.setMem m)
  logRead : ∀ s a v, (e s).logRead a v = e (s.logRead a v)
  logWrite : ∀ s a v, (e s).logWrite a v = e (s.logWrite a v)

section
variable {e : State → State} (he : Unseen e)
include he

theorem Unseen.reg_eq (s : State) (r : Reg) : (e s).reg r = s.reg r := by
  simp only [State.reg, he.regs]

theorem Unseen.effectiveAddress_eq (m : MemOperand) (s : State) : effectiveAddress m (e s) = effectiveAddress m s := by
  cases m <;> simp only [effectiveAddress, he.reg_eq, he.pc]

theorem Unseen.portNumber_eq (p : PortOperand) (s : State) : portNumber p (e s) = portNumber p s := by
  cases p <;> simp only [portNumber, he.reg_eq]

theorem Unseen.memRead_eq (a : Word) (s : State) : memRead a (e s) = (memRead a s).map (Prod.map id e) := by
  simp only [memRead, ioRead, ioAnswer, he.ioTrace, he.mem, he.logRead]
  split_ifs <;> rfl

theorem Unseen.memWrite_eq (a v : Word) (s : State) : memWrite a v (e s) = (memWrite a v s).map e := by
  simp only [memWrite, ioWrite, he.mem, he.logWrite, he.setMem]
  split_ifs <;> rfl

theorem Unseen.valueOperand_eq (o : Operand) (s : State) :
    valueOperand o (e s) = (valueOperand o s).map (Prod.map id e) := by
  cases o with
  | reg r => simp only [valueOperand, he.reg_eq]; rfl
  | imm v => rfl
  | mem m => simp only [valueOperand, he.effectiveAddress_eq, he.memRead_eq]

theorem Unseen.mapNext_finish {x y : Except FaultReason State} (hx : y = x.map e) :
    mapNext e (finish y) = mapNext e (finish x) := by
  subst hx
  rcases x with r | u
  · rfl
  · exact congrArg Host.Outcome.next (he.idem u)

theorem Unseen.mapNext_jumpWhen (b : Bool) (m : MemOperand) (s : State) :
    mapNext e (jumpWhen b m (e s)) = mapNext e (jumpWhen b m s) := by
  cases b <;> simp [jumpWhen, mapNext, he.effectiveAddress_eq, he.setPc, he.idem]

theorem Unseen.mapNext_execStore (m : MemOperand) (r : Reg) (s : State) :
    mapNext e (execStore m r (e s)) = mapNext e (execStore m r s) := by
  apply he.mapNext_finish
  simp only [he.effectiveAddress_eq, he.reg_eq, he.memWrite_eq]

theorem Unseen.mapNext_execInPort (rd : Reg) (p : PortOperand) (s : State)
    (hset : ∀ u v, e ((e u).setReg rd v) = e (u.setReg rd v)) :
    mapNext e (execInPort rd p (e s)) = mapNext e (execInPort rd p s) := by
  simp only [execInPort, he.portNumber_eq]
  split
  · exact mapNext_finishWith (he.memRead_eq _ s) fun v u => hset u v
  · rfl

theorem Unseen.mapNext_execOutPort (p : PortOperand) (rs : Reg) (s : State) :
    mapNext e (execOutPort p rs (e s)) = mapNext e (execOutPort p rs s) := by
  simp only [execOutPort, he.portNumber_eq, he.reg_eq]
  split
  · exact he.mapNext_finish (he.memWrite_eq _ _ s)
  · rfl

end

/-! ### SP -/

theorem unseen_setSp (x : Word) : Unseen (State.setSp · x) where
  idem _ := rfl
  regs _ := rfl
  pc _ := rfl
  mem _ := rfl
  ioTrace _ := rfl
  setPc _ _ := rfl
  setMem _ _ := rfl
  logRead _ _ _ := rfl
  logWrite _ _ _ := rfl

theorem withSp_eq_mapNext (x : Word) (r : Result) : withSp x r = mapNext (State.setSp · x) r := by
  cases r <;> rfl

/-- An outcome whose next state holds `x` in SP is not changed by putting `x` there. -/
theorem withSp_eq_self {x : Word} {r : Result} (h : ∀ t, r = .next t → t.sp = x) : withSp x r = r := by
  cases r with
  | next t => obtain rfl := h t rfl; rfl
  | fault | refused => rfl

/-- No instruction but PUSH, POP, CALL and RET reads SP (10_state.md rule R32). -/
theorem withSp_exec_setSp {i : Instr} (x : Word) (s : State) (hi : usesStack i = false) :
    withSp x (exec i (s.setSp x)) = withSp x (exec i s) := by
  have he := unseen_setSp x
  simp only [withSp_eq_mapNext]
  cases i with
  | nop | halt | shl | shr => rfl
  | mov rd o | add rd o | sub rd o | and rd o | or rd o | xor rd o | cmp rd o =>
    exact mapNext_finishWith (he.valueOperand_eq o s) fun _ _ => rfl
  | load rd m => exact mapNext_finishWith (he.memRead_eq (effectiveAddress m s) s) fun _ _ => rfl
  | store m rs => exact he.mapNext_execStore m rs s
  | jmp m | jz m | jnz m | jc m | jnc m | jn m => exact he.mapNext_jumpWhen _ m s
  | call | ret | push | pop => cases hi
  | inPort rd p => exact he.mapNext_execInPort rd p s fun _ _ => rfl
  | outPort p rs => exact he.mapNext_execOutPort p rs s

/-! ### V -/

/-- The state with V cleared. -/
def State.clearV (s : State) : State := s.setFlags { s.flags with v := false }

theorem unseen_clearV : Unseen State.clearV where
  idem _ := rfl
  regs _ := rfl
  pc _ := rfl
  mem _ := rfl
  ioTrace _ := rfl
  setPc _ _ := rfl
  setMem _ _ := rfl
  logRead _ _ _ := rfl
  logWrite _ _ _ := rfl

theorem forgetV_eq_mapNext (r : Result) : forgetV r = mapNext State.clearV r := by
  cases r <;> rfl

theorem push_clearV (v : Word) (s : State) : push v s.clearV = (push v s).map State.clearV := by
  have hsp : s.clearV.sp = s.sp := rfl
  simp only [push, pushAddress, hsp, unseen_clearV.memWrite_eq]
  cases memWrite (s.sp - 2) v s <;> rfl

theorem pop_clearV (s : State) : pop s.clearV = (pop s).map (Prod.map id State.clearV) := by
  have hsp : s.clearV.sp = s.sp := rfl
  simp only [pop, hsp, unseen_clearV.memRead_eq]
  cases memRead s.sp s <;> rfl

theorem execCall_eq (m : MemOperand) (s : State) :
    execCall m s = finish ((push s.pc s).map (State.setPc · (effectiveAddress m s))) := by
  unfold execCall
  cases push s.pc s <;> rfl

/-- No instruction reads V (10_state.md rule R30). -/
theorem forgetV_exec_clearV (i : Instr) (s : State) : forgetV (exec i s.clearV) = forgetV (exec i s) := by
  have he := unseen_clearV
  simp only [forgetV_eq_mapNext]
  cases i with
  | nop | halt | shl | shr => rfl
  | mov rd o | add rd o | sub rd o | and rd o | or rd o | xor rd o | cmp rd o =>
    exact mapNext_finishWith (he.valueOperand_eq o s) fun _ _ => rfl
  | load rd m => exact mapNext_finishWith (he.memRead_eq (effectiveAddress m s) s) fun _ _ => rfl
  | store m rs => exact he.mapNext_execStore m rs s
  | jmp m | jz m | jnz m | jc m | jnc m | jn m => exact he.mapNext_jumpWhen _ m s
  | call m =>
    simp only [exec, execCall_eq, he.pc, he.effectiveAddress_eq, push_clearV]
    refine he.mapNext_finish ?_
    cases push s.pc s <;> rfl
  | ret | pop => exact mapNext_finishWith (pop_clearV s) fun _ _ => rfl
  | push rs => exact he.mapNext_finish (push_clearV (s.reg rs) s)
  | inPort rd p => exact he.mapNext_execInPort rd p s fun _ _ => rfl
  | outPort p rs => exact he.mapNext_execOutPort p rs s

end Sys2Proof.Machine

namespace Sys2Proof

/-! ## The words of a decoded instruction -/

theorem except_bind_ok {ε α β : Type} {x : Except ε α} {k : α → Except ε β} {b : β} (h : x >>= k = .ok b) :
    ∃ a, x = .ok a ∧ k a = .ok b := by
  cases x with
  | error r => cases h
  | ok a => exact ⟨a, rfl, h⟩

/-- The instruction has no extension word when its base word stands alone, and the extension word it is completed with
otherwise (30_encoding.md rules R92, R93). -/
def Decoded.ExtAgrees : Decoded → Prop
  | .short i => instrExt i = none
  | .long complete => ∀ ext, instrExt (complete ext) = some ext

theorem MemShape.finish_extAgrees {mk : MemOperand → Instr} (h : ∀ m, instrExt (mk m) = memExt m) (m : MemShape) :
    Decoded.ExtAgrees (m.finish mk) := by
  cases m with
  | ind b => exact h _
  | dir | off | rel => exact fun _ => h _

theorem ValueShape.finish_extAgrees {mk : Operand → Instr} (h : ∀ o, instrExt (mk o) = valueExt o) (v : ValueShape) :
    Decoded.ExtAgrees (v.finish mk) := by
  cases v with
  | reg r => exact h _
  | imm => exact fun _ => h _
  | mem m => exact MemShape.finish_extAgrees (fun a => h (.mem a)) m

theorem PortShape.finish_extAgrees {mk : PortOperand → Instr} (h : ∀ p, instrExt (mk p) = portExt p) (p : PortShape) :
    Decoded.ExtAgrees (p.finish mk) := by
  cases p with
  | reg r => exact h _
  | imm => exact fun _ => h _

theorem decodeValue_extAgrees {mk : Reg → Operand → Instr} (hmk : ∀ r o, instrExt (mk r o) = valueExt o) {f : Fields}
    {d : Decoded} (h : decodeValue mk f = .ok d) : Decoded.ExtAgrees d := by
  obtain ⟨v, _, h⟩ := except_bind_ok h
  obtain ⟨r, _, h⟩ := except_bind_ok h
  cases h
  exact ValueShape.finish_extAgrees (hmk r) v

theorem decodeTarget_extAgrees {mk : MemOperand → Instr} (hmk : ∀ m, instrExt (mk m) = memExt m) {f : Fields}
    {d : Decoded} (h : decodeTarget mk f = .ok d) : Decoded.ExtAgrees d := by
  obtain ⟨m, _, h⟩ := except_bind_ok h
  cases h
  exact MemShape.finish_extAgrees hmk m

theorem decodeRegOnly_extAgrees {mk : Reg → Instr} (hmk : ∀ r, instrExt (mk r) = none) {field : BitVec 3}
    {d : Decoded} (h : decodeRegOnly mk field = .ok d) : Decoded.ExtAgrees d := by
  obtain ⟨r, _, h⟩ := except_bind_ok h
  cases h
  exact hmk r

theorem decodeOpcode_extAgrees {f : Fields} {d : Decoded} (h : decodeOpcode f = .ok d) : Decoded.ExtAgrees d := by
  unfold decodeOpcode at h
  split at h
  case h_1 | h_2 | h_21 => cases h; rfl
  case h_4 | h_5 =>
    obtain ⟨m, _, h⟩ := except_bind_ok h
    obtain ⟨r, _, h⟩ := except_bind_ok h
    cases h
    exact MemShape.finish_extAgrees (fun _ => rfl) m
  case h_12 | h_13 | h_22 | h_23 => exact decodeRegOnly_extAgrees (fun _ => rfl) h
  case h_14 | h_15 | h_16 | h_17 | h_18 | h_19 | h_20 => exact decodeTarget_extAgrees (fun _ => rfl) h
  case h_24 | h_25 =>
    obtain ⟨p, _, h⟩ := except_bind_ok h
    obtain ⟨r, _, h⟩ := except_bind_ok h
    cases h
    exact PortShape.finish_extAgrees (fun _ => rfl) p
  case h_26 => cases h
  all_goals exact decodeValue_extAgrees (fun _ _ => rfl) h

theorem decodeBase_extAgrees {w : Word} {d : Decoded} (h : decodeBase w = .ok d) : Decoded.ExtAgrees d := by
  unfold decodeBase at h
  split at h
  · exact decodeOpcode_extAgrees h
  · cases h

end Sys2Proof

namespace Sys2Proof.Machine

open Sys2Proof.Claims

/-! ## Fetching bytes that stand at the pc -/

/-- Two bytes in plain memory are fetched as their word. -/
theorem fetch16_of_bytesAt {s : State} {a : Word} {lo hi : Byte} {rest : List Byte}
    (h : BytesAt s a (lo :: hi :: rest)) : fetch16 a s = .ok (wordOfBytes lo hi) := by
  obtain ⟨ha, rfl, ha', rfl, _⟩ := h
  have hp : plainWord a = true := by rw [plainWord_iff]; bv_omega
  simp only [fetch16, hp, if_true]
  rfl

/-- The fetch answers the instruction that the bytes at the pc decode to, and the pc advanced by 2 for each of its words
(10_state.md rule R24). -/
theorem fetchInstr_of_bytesAt {s : State} {bs rest : List Byte} {i : Instr} (hb : BytesAt s s.pc bs)
    (hd : decode bs = .ok (i, rest)) :
    fetchInstr s = .ok (i, s.pc + BitVec.ofNat 16 (2 * (encode i).length)) := by
  unfold decode at hd
  split at hd
  case h_2 => cases hd
  case h_1 b0 b1 tail =>
  have hbase := fetch16_of_bytesAt hb
  split at hd
  case h_1 => cases hd
  case h_2 j hj =>
    cases hd
    have hext : instrExt i = none := decodeBase_extAgrees hj
    simp [fetchInstr, hbase, hj, encode, hext]
  case h_3 complete hj =>
    split at hd
    case h_2 => cases hd
    case h_1 e0 e1 tail' =>
    cases hd
    have hext := decodeBase_extAgrees hj (wordOfBytes e0 e1)
    have hnext : fetch16 (s.pc + 2) s = .ok (wordOfBytes e0 e1) := by
      obtain ⟨_, _, _, _, h⟩ := hb
      rw [BitVec.add_assoc] at h
      exact fetch16_of_bytesAt h
    simp only [fetchInstr, hbase, hj, hnext, encode, hext]
    rfl

/-- A running state executes what it fetches, with the pc moved past it (10_state.md rule R24). -/
theorem step_of_fetchInstr {s : State} {i : Instr} {next : Word} (hs : Running s) (h : fetchInstr s = .ok (i, next)) :
    step s = exec i (s.setPc next) := by
  obtain ⟨hfault, hhalted⟩ := hs
  simp [step, hfault, hhalted, h]

end Sys2Proof.Machine

namespace Sys2Proof.Proofs

open Sys2Proof.Machine Sys2Proof.Claims

/-- Settles O21, by what each instruction leaves of the pc. -/
theorem onlyControlTransfersWritePc : Obligations.OnlyControlTransfersWritePc :=
  fun _ _ _ h hi => (exec_keeps_pc_sp h).1 hi

/-- Settles O22: the outcome at SP = `x` keeps SP, so it is its own image under `withSp x`. -/
theorem onlyTheStackInstructionsUseSp : Obligations.OnlyTheStackInstructionsUseSp := by
  intro i s x hi
  have keeps : ∀ (s t : State), exec i s = .next t → t.sp = s.sp := fun _ _ h => (exec_keeps_pc_sp h).2 hi
  refine ⟨?_, keeps s⟩
  calc exec i (s.setSp x) = withSp x (exec i (s.setSp x)) := (withSp_eq_self (keeps _)).symm
    _ = withSp x (exec i s) := withSp_exec_setSp x s hi

/-- Settles O23: both states are the same once V is cleared. -/
theorem noInstructionReadsOverflow : Obligations.NoInstructionReadsOverflow := by
  intro i s b
  exact (forgetV_exec_clearV i { s with flags := { s.flags with v := b } }).symm.trans (forgetV_exec_clearV i s)

/-- Settles O8: the fetch answers the decoded instruction, and a running state executes what is fetched. -/
theorem stepRunsTheDecodedInstruction : Obligations.StepRunsTheDecodedInstruction :=
  fun _ _ _ hs hb hd => step_of_fetchInstr hs (fetchInstr_of_bytesAt hb hd)

/-- Settles O26, by the sixteen settings of the four flags. -/
theorem flagsByteLayout : Obligations.FlagsByteLayout := by
  rintro ⟨z, n, c, v⟩
  revert z n c v
  decide

end Sys2Proof.Proofs

/-! PROOFS. The family 20_memory.md: a data access to plain memory completes, and its word lies low byte first. -/

namespace Sys2Proof.Machine

open Sys2Proof.Claims

/-! ## Data accesses to plain memory -/

/-- A data read of a plain word delivers it and changes nothing (20_memory.md rule R61). -/
theorem memRead_of_inPlain {a : Word} (s : State) (ha : InPlain a) : memRead a s = .ok (s.mem.readWord a, s) := by
  have hp : plainWord a = true := (plainWord_iff a).2 ha
  simp only [memRead, not_io_of_plainWord hp, hp, if_true, if_false]

/-- A data write to a plain word stores it (20_memory.md rule R62). -/
theorem memWrite_of_inPlain {a : Word} (v : Word) (s : State) (ha : InPlain a) :
    memWrite a v s = .ok (s.setMem (s.mem.writeWord a v)) := by
  have hp : plainWord a = true := (plainWord_iff a).2 ha
  simp only [memWrite, not_io_of_plainWord hp, hp, if_true, if_false]

/-! ## The bytes of a word in memory (20_memory.md rule R50) -/

theorem lowByte_readWord (s : State) (a : Word) : lowByte (s.mem.readWord a) = s.byte a :=
  lowByte_wordOfBytes _ _

theorem highByte_readWord (s : State) (a : Word) : highByte (s.mem.readWord a) = s.byte (a + 1) :=
  highByte_wordOfBytes _ _

theorem byte_writeWord_low (s : State) (a v : Word) : (s.setMem (s.mem.writeWord a v)).byte a = lowByte v := by
  have hne : a ≠ a + 1 := by bv_omega
  rw [byte_writeWord, if_neg hne, if_pos rfl]

theorem byte_writeWord_high (s : State) (a v : Word) :
    (s.setMem (s.mem.writeWord a v)).byte (a + 1) = highByte v := by
  rw [byte_writeWord, if_pos rfl]

theorem byte_writeWord_other (s : State) {a x : Word} (v : Word) (hlow : x ≠ a) (hhigh : x ≠ a + 1) :
    (s.setMem (s.mem.writeWord a v)).byte x = s.byte x := by
  rw [byte_writeWord, if_neg hhigh, if_neg hlow]

end Sys2Proof.Machine

namespace Sys2Proof.Proofs

open Sys2Proof.Machine Sys2Proof.Claims

/-- Settles O27, by the two bytes of the word read and of the word stored, and a plain read of what was stored. -/
theorem wordsAreLittleEndian : Obligations.WordsAreLittleEndian := by
  intro a v s ha
  constructor
  · refine ⟨s.mem.readWord a, memRead_of_inPlain s ha, ?_, ?_⟩
    · rw [← lowByte_toNat, lowByte_readWord]
    · rw [← highByte_toNat, highByte_readWord]
  · refine ⟨s.setMem (s.mem.writeWord a v), memWrite_of_inPlain v s ha, ?_, ?_, ?_, rfl, ?_⟩
    · rw [byte_writeWord_low, lowByte_toNat]
    · rw [byte_writeWord_high, highByte_toNat]
    · exact fun _ hlow hhigh => byte_writeWord_other s v hlow hhigh
    · rw [memRead_of_inPlain _ ha, State.setMem_mem, Memory.readWord_writeWord]

end Sys2Proof.Proofs

/-! PROOFS. The family 30_encoding.md: the fields of a base word as numbers, and what its extension word does to the pc. -/

namespace Sys2Proof

/-! ## The fields of a base word as numbers (30_encoding.md rule R91) -/

theorem fieldsOf_opcode_toNat (w : Word) : (fieldsOf w).opcode.toNat = w.toNat / 2048 := by
  have hw := w.isLt
  simp only [fieldsOf, BitVec.extractLsb'_toNat, Nat.shiftRight_eq_div_pow]
  omega

theorem fieldsOf_mode_toNat (w : Word) : (fieldsOf w).mode.toNat = w.toNat / 256 % 8 := by
  simp only [fieldsOf, BitVec.extractLsb'_toNat, Nat.shiftRight_eq_div_pow, Nat.reducePow]

theorem fieldsOf_rd_toNat (w : Word) : (fieldsOf w).rd.toNat = w.toNat / 32 % 8 := by
  simp only [fieldsOf, BitVec.extractLsb'_toNat, Nat.shiftRight_eq_div_pow, Nat.reducePow]

theorem fieldsOf_rs_toNat (w : Word) : (fieldsOf w).rs.toNat = w.toNat / 4 % 8 := by
  simp only [fieldsOf, BitVec.extractLsb'_toNat, Nat.shiftRight_eq_div_pow, Nat.reducePow]

theorem fieldsOf_unused_toNat (w : Word) : (fieldsOf w).unused.toNat = w.toNat % 4 := by
  simp only [fieldsOf, BitVec.extractLsb'_toNat, Nat.shiftRight_zero, Nat.reducePow]

/-! ## The extension word of an instruction -/

/-- The bytes of an instruction: two, and two more for an extension word (30_encoding.md rules R90, R92). -/
theorem two_mul_length_encode (i : Instr) :
    2 * (encode i).length = if (instrExt i).isSome = true then 4 else 2 := by
  unfold encode
  cases instrExt i <;> rfl

/-- An instruction with a memory operand has the extension word of that operand. -/
theorem instrExt_of_memoryOperand {i : Instr} {m : MemOperand} (h : Claims.memoryOperand i = some m) :
    instrExt i = memExt m := by
  unfold Claims.memoryOperand at h
  split at h <;> cases h <;> rfl

end Sys2Proof

namespace Sys2Proof.Machine

open Sys2Proof.Claims

/-- A running state executes the instruction at the pc, with the pc moved by 4 past an instruction with an extension
word and by 2 past one without (30_encoding.md rules R94, R105). -/
theorem step_of_bytesAt {s : State} {bs : List Byte} {i : Instr} (hs : Running s) (hb : BytesAt s s.pc bs)
    (hd : decode bs = .ok (i, [])) :
    step s = exec i (s.setPc (s.pc + if (instrExt i).isSome = true then 4 else 2)) := by
  rw [step_of_fetchInstr hs (fetchInstr_of_bytesAt hb hd), two_mul_length_encode]
  split <;> rfl

/-- A jump that is not taken changes nothing. -/
theorem jumpWhen_not_taken {b : Bool} (m : MemOperand) (s : State) (hb : b = false) : jumpWhen b m s = .next s := by
  subst hb
  rfl

/-- The signed offset is added to the number of the word, modulo 65536 (30_encoding.md rule R99). -/
theorem addSigned_toNat (a e : Word) : ((addSigned a e).toNat : Int) = (a.toNat + e.toInt) % 65536 := by
  rw [addSigned_eq_add, BitVec.toNat_add, BitVec.toInt_eq_toNat_cond]
  split <;> omega

end Sys2Proof.Machine

namespace Sys2Proof.Proofs

open Sys2Proof.Machine Sys2Proof.Claims

/-- Settles O1: each field is the word's bits in its place, and the five places cover the word. -/
theorem baseWordIsMadeOfItsFields : Obligations.BaseWordIsMadeOfItsFields := by
  intro w
  rw [fieldsOf_opcode_toNat, fieldsOf_mode_toNat, fieldsOf_rd_toNat, fieldsOf_rs_toNat, fieldsOf_unused_toNat]
  refine ⟨rfl, rfl, rfl, rfl, rfl, ?_⟩
  omega

/-- Settles O48: the pc is past the extension word before the jump looks at its flag. -/
theorem notTakenJumpSkipsItsExtensionWord : Obligations.NotTakenJumpSkipsItsExtensionWord := by
  intro s bs m i hs hb hd hjump
  have hstep := step_of_bytesAt hs hb hd
  rcases hjump with ⟨rfl, hz⟩ | ⟨rfl, hz⟩ | ⟨rfl, hc⟩ | ⟨rfl, hc⟩ | ⟨rfl, hn⟩
  · exact hstep.trans (jumpWhen_not_taken m _ hz)
  · exact hstep.trans (jumpWhen_not_taken m _ (congrArg not hz))
  · exact hstep.trans (jumpWhen_not_taken m _ hc)
  · exact hstep.trans (jumpWhen_not_taken m _ (congrArg not hc))
  · exact hstep.trans (jumpWhen_not_taken m _ hn)

/-- Settles O49: an operand in mode 101 has an extension word, so the pc that its offset is added to is 4 past the base
word. -/
theorem relativeOffsetCountsFromTheNextInstruction : Obligations.RelativeOffsetCountsFromTheNextInstruction := by
  rintro s bs i e _ hs hb hd hm rfl
  have hstep : step s = exec i { s with pc := s.pc + 4 } := by
    rw [step_of_bytesAt hs hb hd, instrExt_of_memoryOperand hm]
    rfl
  have htarget : effectiveAddress (.rel e) { s with pc := s.pc + 4 } = addSigned (s.pc + 4) e := rfl
  rw [htarget]
  refine ⟨hstep, ?_, ?_, ?_, ?_⟩
  · have hpc : (s.pc + 4).toNat = (s.pc.toNat + 4) % 65536 := BitVec.toNat_add s.pc 4
    rw [addSigned_toNat, hpc]
    omega
  · rintro rfl
    rw [addSigned_eq_add]
    exact BitVec.add_zero (s.pc + 4)
  · rintro rfl
    rw [addSigned_eq_add, BitVec.add_assoc]
    exact BitVec.add_zero s.pc
  · rintro rfl
    exact hstep

end Sys2Proof.Proofs

/-! PROOFS. The family 42_alu.md: Z and N of a result, and the word that a value operand delivers. -/

namespace Sys2Proof.Machine

open Sys2Proof.Claims

/-! ## The word a value operand delivers -/

/-- The two bytes of a word, added as numbers at their places (00_scope.md rule R10). -/
theorem wordOfBytes_eq_add (lo hi : Byte) :
    wordOfBytes lo hi = BitVec.ofNat 16 lo.toNat + BitVec.ofNat 16 (hi.toNat * 256) := by
  rw [wordOfBytes, Nat.add_comm, BitVec.ofNat_add]

/-- A data read that answers delivers the word the statements name (20_memory.md rule R61). -/
theorem memRead_value {a v : Word} {s t : State} (h : memRead a s = .ok (v, t)) : v = wordAt a s := by
  rcases memRead_ok h with ⟨hio, rfl, -⟩ | ⟨hp, rfl, -⟩
  · exact (if_pos ((region_io_iff a).1 hio)).symm
  · have hout : ¬ InWindow a := fun hw => not_io_of_plainWord hp ((region_io_iff a).2 hw)
    rw [wordAt, if_neg hout]
    exact wordOfBytes_eq_add _ _

/-- A value operand that answers delivers its value (30_encoding.md rule R100). -/
theorem valueOperand_value {o : Operand} {v : Word} {s t : State} (h : valueOperand o s = .ok (v, t)) :
    v = operandValue o s := by
  rcases valueOperand_ok h with ⟨_, rfl, rfl, _⟩ | ⟨rfl, _⟩ | ⟨_, rfl, hm⟩
  · rfl
  · rfl
  · exact memRead_value hm

/-! ## Z and N of a result (42_alu.md rule R151) -/

/-- Z says that the word `r` is 0x0000, and N is bit 15 of it. -/
def Flags.ZNOf (f : Flags) (r : Word) : Prop := f.z = decide (r = 0) ∧ f.n = r.getLsbD 15

theorem addFlags_znOf (a b : Word) : (addFlags a b).ZNOf (a + b) := ⟨rfl, rfl⟩

theorem subFlags_znOf (a b : Word) : (subFlags a b).ZNOf (a - b) := ⟨rfl, rfl⟩

theorem logicFlags_znOf (r : Word) (old : Flags) : (logicFlags r old).ZNOf r := ⟨rfl, rfl⟩

theorem shlFlags_znOf (a : Word) : (shlFlags a).ZNOf (shlResult a) := ⟨rfl, rfl⟩

theorem shrFlags_znOf (a : Word) : (shrFlags a).ZNOf (shrResult a) := ⟨rfl, rfl⟩

/-- Flags that describe a result describe the register once the result is written to it. -/
theorem Flags.ZNOf.of_setReg {f : Flags} {r : Word} {rd : Reg} {t u : State} (h : f.ZNOf r)
    (ht : t = (u.setReg rd r).setFlags f) : t.flags.ZNOf (t.reg rd) := by
  rw [ht, State.setFlags_flags, State.setFlags_reg, State.setReg_reg_same]
  exact h

/-- The same for a result and flags computed from the operand's value. -/
theorem znOf_of_operand {x : Except FaultReason (Word × State)} {f : Word → Flags} {r : Word → Word} {rd : Reg}
    {t : State} (hf : ∀ v, (f v).ZNOf (r v))
    (h : ∃ v u, x = .ok (v, u) ∧ t = (u.setReg rd (r v)).setFlags (f v)) : t.flags.ZNOf (t.reg rd) := by
  obtain ⟨v, _, -, ht⟩ := h
  exact (hf v).of_setReg ht

end Sys2Proof.Machine

namespace Sys2Proof.Proofs

open Sys2Proof.Machine Sys2Proof.Claims

/-- Settles O44: each of the seven writes to RD the result its flags describe; CMP's flags describe the difference with
the operand's value. -/
theorem zeroAndNegativeComeFromTheResult : Obligations.ZeroAndNegativeComeFromTheResult := by
  intro rd o s t
  constructor
  · intro i hi h
    simp only [List.mem_cons, List.not_mem_nil, or_false] at hi
    rcases hi with rfl | rfl | rfl | rfl | rfl | rfl | rfl
    · exact znOf_of_operand (addFlags_znOf _) (exec_next h)
    · exact znOf_of_operand (subFlags_znOf _) (exec_next h)
    · exact znOf_of_operand (fun v => logicFlags_znOf (s.reg rd &&& v) s.flags) (exec_next h)
    · exact znOf_of_operand (fun v => logicFlags_znOf (s.reg rd ||| v) s.flags) (exec_next h)
    · exact znOf_of_operand (fun v => logicFlags_znOf (s.reg rd ^^^ v) s.flags) (exec_next h)
    · exact (shlFlags_znOf _).of_setReg (exec_next h)
    · exact (shrFlags_znOf _).of_setReg (exec_next h)
  · intro h
    obtain ⟨v, u, hv, rfl⟩ := exec_next h
    rw [← valueOperand_value hv]
    exact subFlags_znOf (s.reg rd) v

end Sys2Proof.Proofs

/-! PROOFS. The encoding statements: the decoder reads back what the encoder writes, and its checks are those of the class table. -/

namespace Sys2Proof

/-! ## Decoding what the encoder writes -/

/-- The instruction that a decoded base word is, once its extension word, if it has one, is known. -/
def Decoded.complete : Decoded → Option Word → Option Instr
  | .short i, none => some i
  | .long k, some ext => some (k ext)
  | .short _, some _ | .long _, none => none

theorem MemShape.complete_finish (mk : MemOperand → Instr) (m : MemOperand) :
    ((shapeOf m).finish mk).complete (memExt m) = some (mk m) := by cases m <;> rfl

theorem ValueShape.complete_finish (mk : Operand → Instr) (o : Operand) :
    ((valueShapeOf o).finish mk).complete (valueExt o) = some (mk o) := by
  cases o with
  | reg | imm => rfl
  | mem m => exact MemShape.complete_finish (fun a => mk (.mem a)) m

theorem PortShape.complete_finish (mk : PortOperand → Instr) (p : PortOperand) :
    ((portShapeOf p).finish mk).complete (portExt p) = some (mk p) := by cases p <;> rfl

/-- Two checks that pass, and what is made of them. -/
theorem bind₂_eq_ok {ε α β γ : Type} {x : Except ε α} {y : Except ε β} {a : α} {b : β} {k : α → β → γ}
    (hx : x = .ok a) (hy : y = .ok b) : (x >>= fun a => y >>= fun b => pure (k a b)) = .ok (k a b) := by
  subst hx hy
  rfl

theorem decodeValue_valueFields (mk : Reg → Operand → Instr) (op : BitVec 5) (rd : Reg) (o : Operand) :
    decodeValue mk (valueFields op rd o) = .ok ((valueShapeOf o).finish (mk rd)) :=
  bind₂_eq_ok (valueShape_valueMode o) (regOfField_regField rd)

theorem decodeTarget_targetFields (mk : MemOperand → Instr) (op : BitVec 5) (m : MemOperand) :
    decodeTarget mk (targetFields op m) = .ok ((shapeOf m).finish mk) := by
  simp only [decodeTarget, targetFields, memShape_memMode]
  rfl

theorem decodeRegOnly_regField (mk : Reg → Instr) (r : Reg) :
    decodeRegOnly mk (regField r) = .ok (.short (mk r)) := by
  simp only [decodeRegOnly, regOfField_regField]
  rfl

/-- The canonical fields of an instruction decode to what its extension word completes to it. -/
theorem decodeOpcode_instrFields (i : Instr) :
    ∃ d, decodeOpcode (instrFields i) = .ok d ∧ d.complete (instrExt i) = some i := by
  cases i with
  | nop | halt | ret => exact ⟨_, rfl, rfl⟩
  | mov rd o | add rd o | sub rd o | and rd o | or rd o | xor rd o | cmp rd o =>
    exact ⟨_, decodeValue_valueFields _ _ rd o, ValueShape.complete_finish _ o⟩
  | load rd m =>
    exact ⟨_, bind₂_eq_ok (memShape_memMode m) (regOfField_regField rd), MemShape.complete_finish _ m⟩
  | store m rs =>
    exact ⟨_, bind₂_eq_ok (memShape_memMode m) (regOfField_regField rs), MemShape.complete_finish _ m⟩
  | shl r | shr r | push r | pop r => exact ⟨_, decodeRegOnly_regField _ r, rfl⟩
  | jmp m | jz m | jnz m | jc m | jnc m | jn m | call m =>
    exact ⟨_, decodeTarget_targetFields _ _ m, MemShape.complete_finish _ m⟩
  | inPort rd p =>
    exact ⟨_, bind₂_eq_ok (portShape_portMode p) (regOfField_regField rd), PortShape.complete_finish _ p⟩
  | outPort p rs =>
    exact ⟨_, bind₂_eq_ok (portShape_portMode p) (regOfField_regField rs), PortShape.complete_finish _ p⟩

/-- A base word with clear UNUSED bits is decoded by its opcode (30_encoding.md rule R104 steps 3 to 5). -/
theorem decodeBase_of_unused {w : Word} (h : (fieldsOf w).unused = 0) : decodeBase w = decodeOpcode (fieldsOf w) :=
  if_pos h

/-- The bytes of a base word and of the extension word that completes it decode to the instruction. -/
theorem decode_bytesOfWords {w : Word} {ext : Option Word} {d : Decoded} {i : Instr} (rest : List Byte)
    (hd : decodeBase w = .ok d) (hi : d.complete ext = some i) :
    decode (bytesOfWords (w :: ext.toList) ++ rest) = .ok (i, rest) := by
  cases d with
  | short j =>
    cases ext with
    | none => cases hi; simp [bytesOfWords, decode, hd]
    | some => cases hi
  | long k =>
    cases ext with
    | none => cases hi
    | some e => cases hi; simp [bytesOfWords, decode, hd]

end Sys2Proof

namespace Sys2Proof.Proofs

/-- Settles O2: the canonical fields are read back from the base word, and each class decoder from its fields. -/
theorem decodeOfEncodeIsTheInstruction : Obligations.DecodeOfEncodeIsTheInstruction := by
  intro i rest
  obtain ⟨d, hd, hi⟩ := decodeOpcode_instrFields i
  have hw : decodeBase (wordOfFields (instrFields i)) = .ok d := by
    rw [decodeBase_of_unused (by simp), fieldsOf_wordOfFields, hd]
  exact decode_bytesOfWords rest hw hi

end Sys2Proof.Proofs

namespace Sys2Proof

/-! ## The decoder of each class -/

/-- `dec` decodes the fields of a base word with opcode `op` of a class (30_encoding.md rules R102, R103): it is the
class decoder at the constructor whose instructions have this opcode. -/
inductive ClassDecoder (op : BitVec 5) : OpClass → (Fields → Except DecodeReason Decoded) → Prop
  | none (i : Instr) (hi : (instrFields i).opcode = op) : ClassDecoder op .none fun _ => .ok (.short i)
  | value (mk : Reg → Operand → Instr) (hmk : ∀ rd o, instrFields (mk rd o) = valueFields op rd o) :
    ClassDecoder op .value (decodeValue mk)
  | addrRead (hop : op = 3) : ClassDecoder op .addrRead (decodeAddrRead .load)
  | addrWrite (hop : op = 4) : ClassDecoder op .addrWrite (decodeAddrWrite .store)
  | shift (mk : Reg → Instr)
    (hmk : ∀ r, instrFields (mk r) = { opcode := op, mode := 0, rd := regField r, rs := 0, unused := 0 }) :
    ClassDecoder op .shift fun f => decodeRegOnly mk f.rd
  | target (mk : MemOperand → Instr) (hmk : ∀ m, instrFields (mk m) = targetFields op m) :
    ClassDecoder op .target (decodeTarget mk)
  | push (hop : op = 21) : ClassDecoder op .push fun f => decodeRegOnly .push f.rs
  | pop (hop : op = 22) : ClassDecoder op .pop fun f => decodeRegOnly .pop f.rd
  | portIn (hop : op = 23) : ClassDecoder op .portIn (decodePortIn .inPort)
  | portOut (hop : op = 24) : ClassDecoder op .portOut (decodePortOut .outPort)

theorem eq_ofNat_of_toNat_eq {n k : Nat} {b : BitVec n} (h : b.toNat = k) : b = BitVec.ofNat n k := by
  rw [← h, BitVec.ofNat_toNat, BitVec.setWidth_eq]

/-- An assigned opcode is decoded by a decoder of its class. -/
theorem classDecoder_of_opClass {op : BitVec 5} {c : OpClass} (h : opClass op = some c) :
    ∃ dec, ClassDecoder op c dec ∧ ∀ f, f.opcode = op → decodeOpcode f = dec f := by
  suffices table : ∃ dec, ClassDecoder op c dec ∧
      ∀ mode rd rs un, decodeOpcode ⟨op, mode, rd, rs, un⟩ = dec ⟨op, mode, rd, rs, un⟩ by
    obtain ⟨dec, hdec, heq⟩ := table
    exact ⟨dec, hdec, fun ⟨_, mode, rd, rs, un⟩ hf => by cases hf; exact heq mode rd rs un⟩
  unfold opClass at h
  split at h <;> cases h
  all_goals rename_i hop; obtain rfl := eq_ofNat_of_toNat_eq hop
  case h_1 => exact ⟨_, .none .nop rfl, fun _ _ _ _ => rfl⟩
  case h_2 => exact ⟨_, .none .halt rfl, fun _ _ _ _ => rfl⟩
  case h_3 => exact ⟨_, .none .ret rfl, fun _ _ _ _ => rfl⟩
  case h_4 => exact ⟨_, .value .mov fun _ _ => rfl, fun _ _ _ _ => rfl⟩
  case h_5 => exact ⟨_, .value .add fun _ _ => rfl, fun _ _ _ _ => rfl⟩
  case h_6 => exact ⟨_, .value .sub fun _ _ => rfl, fun _ _ _ _ => rfl⟩
  case h_7 => exact ⟨_, .value .and fun _ _ => rfl, fun _ _ _ _ => rfl⟩
  case h_8 => exact ⟨_, .value .or fun _ _ => rfl, fun _ _ _ _ => rfl⟩
  case h_9 => exact ⟨_, .value .xor fun _ _ => rfl, fun _ _ _ _ => rfl⟩
  case h_10 => exact ⟨_, .value .cmp fun _ _ => rfl, fun _ _ _ _ => rfl⟩
  case h_11 => exact ⟨_, .addrRead rfl, fun _ _ _ _ => rfl⟩
  case h_12 => exact ⟨_, .addrWrite rfl, fun _ _ _ _ => rfl⟩
  case h_13 => exact ⟨_, .shift .shl fun _ => rfl, fun _ _ _ _ => rfl⟩
  case h_14 => exact ⟨_, .shift .shr fun _ => rfl, fun _ _ _ _ => rfl⟩
  case h_15 => exact ⟨_, .target .jmp fun _ => rfl, fun _ _ _ _ => rfl⟩
  case h_16 => exact ⟨_, .target .jz fun _ => rfl, fun _ _ _ _ => rfl⟩
  case h_17 => exact ⟨_, .target .jnz fun _ => rfl, fun _ _ _ _ => rfl⟩
  case h_18 => exact ⟨_, .target .jc fun _ => rfl, fun _ _ _ _ => rfl⟩
  case h_19 => exact ⟨_, .target .jnc fun _ => rfl, fun _ _ _ _ => rfl⟩
  case h_20 => exact ⟨_, .target .jn fun _ => rfl, fun _ _ _ _ => rfl⟩
  case h_21 => exact ⟨_, .target .call fun _ => rfl, fun _ _ _ _ => rfl⟩
  case h_22 => exact ⟨_, .push rfl, fun _ _ _ _ => rfl⟩
  case h_23 => exact ⟨_, .pop rfl, fun _ _ _ _ => rfl⟩
  case h_24 => exact ⟨_, .portIn rfl, fun _ _ _ _ => rfl⟩
  case h_25 => exact ⟨_, .portOut rfl, fun _ _ _ _ => rfl⟩

/-- An unassigned opcode is reserved (30_encoding.md rule R108). -/
theorem decodeOpcode_of_unassigned {f : Fields} (h : opClass f.opcode = none) :
    decodeOpcode f = .error .reservedOpcode := by
  have hop : ∀ op : BitVec 5, opClass op = none →
      op = 25 ∨ op = 26 ∨ op = 27 ∨ op = 28 ∨ op = 29 ∨ op = 30 ∨ op = 31 := by decide
  obtain ⟨op, _, _, _, _⟩ := f
  rcases hop op h with rfl | rfl | rfl | rfl | rfl | rfl | rfl <;> rfl

end Sys2Proof

namespace Sys2Proof

/-! ## What a base word is rejected for -/

/-- The rejection of a decoding, if it is one. -/
def rejectionOf {α : Type} : Except DecodeReason α → Option DecodeReason
  | .ok _ => Option.none
  | .error r => some r

theorem rejectionOf_bind {α β : Type} (x : Except DecodeReason α) (k : α → β) :
    rejectionOf (x >>= fun a => pure (k a)) = rejectionOf x := by
  cases x <;> rfl

/-- Of two checks the first that fails names the rejection. -/
theorem rejectionOf_bind₂ {α β γ : Type} (x : Except DecodeReason α) (y : Except DecodeReason β) (k : α → β → γ) :
    rejectionOf (x >>= fun a => y >>= fun b => pure (k a b)) = (rejectionOf x).or (rejectionOf y) := by
  cases x
  · rfl
  · exact rejectionOf_bind y _

theorem rejectionOf_eq_none_iff {α : Type} {x : Except DecodeReason α} :
    rejectionOf x = none ↔ ∃ a, x = .ok a := by
  cases x <;> simp [rejectionOf]

theorem rejectionOf_eq_some_iff {α : Type} {x : Except DecodeReason α} {r : DecodeReason} :
    rejectionOf x = some r ↔ x = .error r := by
  cases x <;> simp [rejectionOf]

/-- The two checks of the mode (30_encoding.md rule R104 step 6) for an instruction of class `c`. -/
def OpClass.modeRejection (c : OpClass) (mode : BitVec 3) : Option DecodeReason :=
  if c.usesMode = true ∧ 5 < mode.toNat then some .reservedMode
  else if c.admits mode = false then some .unsupportedMode
  else Option.none

/-- The check of a register field (rule R104 step 7), where it is used. -/
def regRejection (used : Bool) (field : BitVec 3) : Option DecodeReason :=
  if used = true ∧ 3 < field.toNat then some .reservedRegister else none

/-- The checks of rule R104 steps 6 and 7 for an instruction of class `c`, in their order. -/
def OpClass.rejection (c : OpClass) (mode rd rs : BitVec 3) : Option DecodeReason :=
  (c.modeRejection mode).or ((regRejection (c.usesRd mode) rd).or (regRejection (c.usesRs mode) rs))

theorem regRejection_or_comm (u v : Bool) (a b : BitVec 3) :
    (regRejection u a).or (regRejection v b) = (regRejection v b).or (regRejection u a) := by
  unfold regRejection
  split_ifs <;> rfl

theorem rejectionOf_regOfField (b : BitVec 3) : rejectionOf (regOfField b) = regRejection true b := by
  revert b
  decide

theorem rejectionOf_memShape (mode base : BitVec 3) :
    rejectionOf (memShape mode base) =
      (OpClass.target.modeRejection mode).or (regRejection (OpClass.target.usesRs mode) base) := by
  revert mode base
  decide

theorem rejectionOf_valueShape (mode rs : BitVec 3) :
    rejectionOf (valueShape mode rs) =
      (OpClass.value.modeRejection mode).or (regRejection (OpClass.value.usesRs mode) rs) := by
  revert mode rs
  decide

theorem rejectionOf_portShape (mode reg : BitVec 3) :
    rejectionOf (portShape mode reg) =
      (OpClass.portIn.modeRejection mode).or (regRejection (OpClass.portIn.usesRs mode) reg) := by
  revert mode reg
  decide

/-- A decoder of a class makes the checks of the class table (30_encoding.md rule R102). -/
theorem ClassDecoder.rejectionOf_eq {op : BitVec 5} {c : OpClass} {dec : Fields → Except DecodeReason Decoded}
    (h : ClassDecoder op c dec) (f : Fields) : rejectionOf (dec f) = c.rejection f.mode f.rd f.rs := by
  cases h with
  | none => rfl
  | value =>
    rw [decodeValue, rejectionOf_bind₂, rejectionOf_valueShape, rejectionOf_regOfField, Option.or_assoc,
      regRejection_or_comm]
    rfl
  | addrRead =>
    rw [decodeAddrRead, rejectionOf_bind₂, rejectionOf_memShape, rejectionOf_regOfField, Option.or_assoc,
      regRejection_or_comm]
    rfl
  | addrWrite =>
    rw [decodeAddrWrite, rejectionOf_bind₂, rejectionOf_memShape, rejectionOf_regOfField, Option.or_assoc]
    rfl
  | target =>
    rw [decodeTarget, rejectionOf_bind, rejectionOf_memShape]
    rfl
  | shift | pop =>
    simp only [decodeRegOnly, rejectionOf_bind, rejectionOf_regOfField]
    exact (Option.or_none ..).symm
  | push =>
    simp only [decodeRegOnly, rejectionOf_bind, rejectionOf_regOfField]
    rfl
  | portIn =>
    rw [decodePortIn, rejectionOf_bind₂, rejectionOf_portShape, rejectionOf_regOfField, Option.or_assoc,
      regRejection_or_comm]
    rfl
  | portOut =>
    rw [decodePortOut, rejectionOf_bind₂, rejectionOf_portShape, rejectionOf_regOfField, Option.or_assoc]
    rfl

/-- The first check of the class table that a base word's fields fail (30_encoding.md rule R104 steps 3 to 7). -/
def Fields.rejection (f : Fields) : Option DecodeReason :=
  if f.unusedClear = false then some .unusedBits
  else if f.opcodeAssigned = false then some .reservedOpcode
  else if f.modeNotReserved = false then some .reservedMode
  else if f.modeAdmitted = false then some .unsupportedMode
  else if (f.rdNamesRegister && f.rsNamesRegister) = false then some .reservedRegister
  else none

theorem Fields.rejection_eq_none_iff (f : Fields) : f.rejection = none ↔ f.wellFormed = true := by
  unfold Fields.rejection Fields.wellFormed
  split_ifs <;> simp_all

/-- For an assigned opcode the checks are those of its class. -/
theorem Fields.rejection_of_opClass {f : Fields} {c : OpClass} (hu : f.unusedClear = true)
    (hc : opClass f.opcode = some c) : f.rejection = c.rejection f.mode f.rd f.rs := by
  simp only [Fields.rejection, hu, Fields.opcodeAssigned, Fields.modeNotReserved, Fields.modeAdmitted,
    Fields.rdNamesRegister, Fields.rsNamesRegister, hc, OpClass.rejection, OpClass.modeRejection, regRejection]
  split_ifs <;> simp_all

/-- The decoder makes the checks of the class table in their order. -/
theorem rejectionOf_decodeBase (w : Word) : rejectionOf (decodeBase w) = (fieldsOf w).rejection := by
  by_cases hu : (fieldsOf w).unused = 0
  · have hclear : (fieldsOf w).unusedClear = true := by simp [Fields.unusedClear, hu]
    rw [decodeBase_of_unused hu]
    cases hc : opClass (fieldsOf w).opcode with
    | none =>
      rw [decodeOpcode_of_unassigned hc]
      simp [rejectionOf, Fields.rejection, hclear, Fields.opcodeAssigned, hc]
    | some c =>
      obtain ⟨dec, hdec, heq⟩ := classDecoder_of_opClass hc
      rw [Fields.rejection_of_opClass hclear hc, ← hdec.rejectionOf_eq]
      exact congrArg rejectionOf (heq _ rfl)
  · have hclear : (fieldsOf w).unusedClear = false := beq_false_of_ne hu
    rw [decodeBase, if_neg hu, Fields.rejection, if_pos hclear]
    rfl

end Sys2Proof

namespace Sys2Proof.Proofs

/-- Settles O4: the decoder's rejection is the class table's. -/
theorem decodeAcceptsExactlyWellFormedWords : Obligations.DecodeAcceptsExactlyWellFormedWords := by
  intro w
  rw [← rejectionOf_eq_none_iff, rejectionOf_decodeBase, Fields.rejection_eq_none_iff]

/-- Settles O5: the decoder's rejection is the class table's. -/
theorem decodeChecksComeInOrder : Obligations.DecodeChecksComeInOrder := by
  intro w
  simp only [← rejectionOf_eq_some_iff, rejectionOf_decodeBase, Fields.rejection]
  refine ⟨fun hu => ?_, fun hu ho => ?_, fun hu ho hr => ?_, fun hu ho hr ha => ?_, fun hu ho hr ha hreg => ?_⟩ <;>
    simp [*]

end Sys2Proof.Proofs

namespace Sys2Proof

/-! ## The fields that matter -/

/-- `f` and `g` have the same opcode, and the same value in every field that class `c` uses (30_encoding.md rules
R102, R106). -/
structure Fields.AgreeOn (c : OpClass) (f g : Fields) : Prop where
  opcode : f.opcode = g.opcode
  mode : c.usesMode = true → f.mode = g.mode
  rd : c.usesRd f.mode = true → f.rd = g.rd
  rs : c.usesRs f.mode = true → f.rs = g.rs

theorem memShape_congr {mode b b' : BitVec 3} (h : OpClass.target.usesRs mode = true → b = b') :
    memShape mode b = memShape mode b' := by
  unfold memShape
  split
  case h_4 hm | h_5 hm => rw [h (by rw [eq_ofNat_of_toNat_eq hm]; rfl)]
  all_goals rfl

theorem usesRs_value_of_target {mode : BitVec 3} (h : OpClass.target.usesRs mode = true) :
    OpClass.value.usesRs mode = true := by
  revert mode
  decide

theorem valueShape_congr {mode b b' : BitVec 3} (h : OpClass.value.usesRs mode = true → b = b') :
    valueShape mode b = valueShape mode b' := by
  unfold valueShape
  split
  case h_1 hm => rw [h (by rw [eq_ofNat_of_toNat_eq hm]; rfl)]
  case h_2 => rfl
  case h_3 => rw [memShape_congr fun hu => h (usesRs_value_of_target hu)]

theorem portShape_congr {mode b b' : BitVec 3} (h : OpClass.portIn.usesRs mode = true → b = b') :
    portShape mode b = portShape mode b' := by
  unfold portShape
  split
  case h_1 hm => rw [h (by rw [eq_ofNat_of_toNat_eq hm]; rfl)]
  all_goals rfl

/-- A decoder of a class looks at the fields the class uses, and at no other. -/
theorem ClassDecoder.congr {op : BitVec 5} {c : OpClass} {dec : Fields → Except DecodeReason Decoded}
    (h : ClassDecoder op c dec) {f g : Fields} (hfg : f.AgreeOn c g) : dec f = dec g := by
  obtain ⟨-, hmode, hrd, hrs⟩ := hfg
  cases h with
  | none => rfl
  | value => rw [decodeValue, decodeValue, valueShape_congr hrs, hmode rfl, hrd rfl]
  | addrRead => rw [decodeAddrRead, decodeAddrRead, memShape_congr hrs, hmode rfl, hrd rfl]
  | addrWrite => rw [decodeAddrWrite, decodeAddrWrite, memShape_congr hrd, hmode rfl, hrs rfl]
  | shift | pop => exact congrArg (decodeRegOnly _) (hrd rfl)
  | target => rw [decodeTarget, decodeTarget, memShape_congr hrs, hmode rfl]
  | push => exact congrArg (decodeRegOnly _) (hrs rfl)
  | portIn => rw [decodePortIn, decodePortIn, portShape_congr hrs, hmode rfl, hrd rfl]
  | portOut => rw [decodePortOut, decodePortOut, portShape_congr hrd, hmode rfl, hrs rfl]

/-! ## What a decoded instruction says of its fields -/

/-- Every instruction that the decoded base word can be completed to has the property. -/
def Decoded.All (P : Instr → Prop) : Decoded → Prop
  | .short i => P i
  | .long k => ∀ ext, P (k ext)

theorem Decoded.All.of_complete {P : Instr → Prop} {d : Decoded} {ext : Option Word} {i : Instr} (h : d.All P)
    (hi : d.complete ext = some i) : P i := by
  cases d <;> cases ext <;> cases hi
  · exact h
  · exact h _

theorem MemShape.all_finish {P : Instr → Prop} {mk : MemOperand → Instr} {sh : MemShape}
    (h : ∀ m, shapeOf m = sh → P (mk m)) : (sh.finish mk).All P := by
  cases sh with
  | dir => exact fun e => h (.dir e) rfl
  | ind b => exact h (.ind b) rfl
  | off b => exact fun e => h (.off b e) rfl
  | rel => exact fun e => h (.rel e) rfl

theorem ValueShape.all_finish {P : Instr → Prop} {mk : Operand → Instr} {sh : ValueShape}
    (h : ∀ o, valueShapeOf o = sh → P (mk o)) : (sh.finish mk).All P := by
  cases sh with
  | reg r => exact h (.reg r) rfl
  | imm => exact fun e => h (.imm e) rfl
  | mem m => exact MemShape.all_finish fun a ha => h (.mem a) (congrArg ValueShape.mem ha)

theorem PortShape.all_finish {P : Instr → Prop} {mk : PortOperand → Instr} {sh : PortShape}
    (h : ∀ p, portShapeOf p = sh → P (mk p)) : (sh.finish mk).All P := by
  cases sh with
  | reg r => exact h (.reg r) rfl
  | imm => exact fun e => h (.imm e) rfl

theorem eq_regField_of_regOfField {b : BitVec 3} {r : Reg} (h : regOfField b = .ok r) : b = regField r := by
  rcases regOfField_cases b with ⟨q, rfl, hq⟩ | ⟨-, he⟩
  · cases hq.symm.trans h; rfl
  · cases he.symm.trans h

/-- A memory operand is read from its own mode and, where the mode uses it, its own base register field. -/
theorem memShape_ok {mode b : BitVec 3} {m : MemOperand} (h : memShape mode b = .ok (shapeOf m)) :
    mode = memMode m ∧ (OpClass.target.usesRs mode = true → b = memBase m) := by
  unfold memShape at h
  split at h
  case h_1 | h_2 | h_7 => cases h
  case h_3 hm | h_6 hm =>
    obtain rfl := eq_ofNat_of_toNat_eq hm
    cases m <;> cases h
    exact ⟨rfl, nofun⟩
  case h_4 hm | h_5 hm =>
    obtain ⟨r, hr, h⟩ := except_bind_ok h
    cases m <;> cases h
    exact ⟨eq_ofNat_of_toNat_eq hm, fun _ => eq_regField_of_regOfField hr⟩

theorem usesRs_target_of_value {mode : BitVec 3} (h : OpClass.value.usesRs mode = true) (h0 : mode.toNat ≠ 0) :
    OpClass.target.usesRs mode = true := by
  revert mode
  decide

theorem valueShape_ok {mode b : BitVec 3} {o : Operand} (h : valueShape mode b = .ok (valueShapeOf o)) :
    mode = valueMode o ∧ (OpClass.value.usesRs mode = true → b = valueReg o) := by
  unfold valueShape at h
  split at h
  case h_1 hm =>
    obtain ⟨r, hr, h⟩ := except_bind_ok h
    cases o <;> cases h
    exact ⟨eq_ofNat_of_toNat_eq hm, fun _ => eq_regField_of_regOfField hr⟩
  case h_2 hm =>
    obtain rfl := eq_ofNat_of_toNat_eq hm
    cases o <;> cases h
    exact ⟨rfl, nofun⟩
  case h_3 h0 _ =>
    obtain ⟨sh, hsh, h⟩ := except_bind_ok h
    cases o <;> cases h
    exact (memShape_ok hsh).imp_right fun hb hu => hb (usesRs_target_of_value hu h0)

theorem portShape_ok {mode b : BitVec 3} {p : PortOperand} (h : portShape mode b = .ok (portShapeOf p)) :
    mode = portMode p ∧ (OpClass.portIn.usesRs mode = true → b = portReg p) := by
  unfold portShape at h
  split at h
  case h_1 hm =>
    obtain ⟨r, hr, h⟩ := except_bind_ok h
    cases p <;> cases h
    exact ⟨eq_ofNat_of_toNat_eq hm, fun _ => eq_regField_of_regOfField hr⟩
  case h_2 hm =>
    obtain rfl := eq_ofNat_of_toNat_eq hm
    cases p <;> cases h
    exact ⟨rfl, nofun⟩
  all_goals cases h

theorem except_bind₂_ok {ε α β γ : Type} {x : Except ε α} {y : Except ε β} {k : α → β → γ} {c : γ}
    (h : (x >>= fun a => y >>= fun b => pure (k a b)) = .ok c) : ∃ a b, x = .ok a ∧ y = .ok b ∧ k a b = c := by
  obtain ⟨a, ha, h⟩ := except_bind_ok h
  obtain ⟨b, hb, h⟩ := except_bind_ok h
  cases h
  exact ⟨a, b, ha, hb, rfl⟩

/-- The instructions a decoder of a class answers have the fields they are decoded from, where the class uses them. -/
theorem ClassDecoder.all_agreeOn {op : BitVec 5} {c : OpClass} {dec : Fields → Except DecodeReason Decoded}
    (h : ClassDecoder op c dec) {f : Fields} (hf : f.opcode = op) {d : Decoded} (hd : dec f = .ok d) :
    d.All fun i => f.AgreeOn c (instrFields i) := by
  subst hf
  cases h with
  | none i hi => cases hd; exact ⟨hi.symm, nofun, nofun, nofun⟩
  | value mk hmk =>
    obtain ⟨sh, r, hsh, hr, rfl⟩ := except_bind₂_ok hd
    refine ValueShape.all_finish fun o ho => ?_
    obtain ⟨hmode, hrs⟩ := valueShape_ok (ho ▸ hsh)
    rw [hmk]
    exact ⟨rfl, fun _ => hmode, fun _ => eq_regField_of_regOfField hr, hrs⟩
  | addrRead hop =>
    obtain ⟨sh, r, hsh, hr, rfl⟩ := except_bind₂_ok hd
    refine MemShape.all_finish fun m hm => ?_
    obtain ⟨hmode, hrs⟩ := memShape_ok (hm ▸ hsh)
    exact ⟨hop, fun _ => hmode, fun _ => eq_regField_of_regOfField hr, hrs⟩
  | addrWrite hop =>
    obtain ⟨sh, r, hsh, hr, rfl⟩ := except_bind₂_ok hd
    refine MemShape.all_finish fun m hm => ?_
    obtain ⟨hmode, hrd⟩ := memShape_ok (hm ▸ hsh)
    exact ⟨hop, fun _ => hmode, hrd, fun _ => eq_regField_of_regOfField hr⟩
  | shift mk hmk =>
    obtain ⟨r, hr, hd⟩ := except_bind_ok hd
    cases hd
    change f.AgreeOn _ (instrFields (mk r))
    rw [hmk]
    exact ⟨rfl, nofun, fun _ => eq_regField_of_regOfField hr, nofun⟩
  | target mk hmk =>
    obtain ⟨sh, hsh, hd⟩ := except_bind_ok hd
    cases hd
    refine MemShape.all_finish fun m hm => ?_
    obtain ⟨hmode, hrs⟩ := memShape_ok (hm ▸ hsh)
    rw [hmk]
    exact ⟨rfl, fun _ => hmode, nofun, hrs⟩
  | push hop =>
    obtain ⟨r, hr, hd⟩ := except_bind_ok hd
    cases hd
    exact ⟨hop, nofun, nofun, fun _ => eq_regField_of_regOfField hr⟩
  | pop hop =>
    obtain ⟨r, hr, hd⟩ := except_bind_ok hd
    cases hd
    exact ⟨hop, nofun, fun _ => eq_regField_of_regOfField hr, nofun⟩
  | portIn hop =>
    obtain ⟨sh, r, hsh, hr, rfl⟩ := except_bind₂_ok hd
    refine PortShape.all_finish fun p hp => ?_
    obtain ⟨hmode, hrs⟩ := portShape_ok (hp ▸ hsh)
    exact ⟨hop, fun _ => hmode, fun _ => eq_regField_of_regOfField hr, hrs⟩
  | portOut hop =>
    obtain ⟨sh, r, hsh, hr, rfl⟩ := except_bind₂_ok hd
    refine PortShape.all_finish fun p hp => ?_
    obtain ⟨hmode, hrd⟩ := portShape_ok (hp ▸ hsh)
    exact ⟨hop, fun _ => hmode, hrd, fun _ => eq_regField_of_regOfField hr⟩

/-- A base word that is decoded has clear UNUSED bits and an assigned opcode, whose class decoder decodes it. -/
theorem decodeBase_ok {w : Word} {d : Decoded} (h : decodeBase w = .ok d) :
    (fieldsOf w).unused = 0 ∧ ∃ c dec, opClass (fieldsOf w).opcode = some c ∧ ClassDecoder (fieldsOf w).opcode c dec ∧
      dec (fieldsOf w) = .ok d := by
  unfold decodeBase at h
  split at h
  case isFalse => cases h
  case isTrue hu =>
    refine ⟨hu, ?_⟩
    cases hc : opClass (fieldsOf w).opcode with
    | none => cases (decodeOpcode_of_unassigned hc).symm.trans h
    | some c =>
      obtain ⟨dec, hdec, heq⟩ := classDecoder_of_opClass hc
      exact ⟨c, dec, rfl, hdec, (heq _ rfl).symm.trans h⟩

/-- The bytes of a decoded instruction are a base word, the extension word that completes it, and the rest
(30_encoding.md rules R90, R92). -/
theorem decode_ok {bs rest : List Byte} {i : Instr} (h : decode bs = .ok (i, rest)) :
    ∃ w d, bs = lowByte w :: highByte w :: (bytesOfWords (instrExt i).toList ++ rest) ∧ decodeBase w = .ok d ∧
      d.complete (instrExt i) = some i := by
  unfold decode at h
  split at h
  case h_2 => cases h
  case h_1 b0 b1 tail =>
  split at h
  case h_1 => cases h
  case h_2 j hj =>
    cases h
    have hext : instrExt i = none := decodeBase_extAgrees hj
    exact ⟨_, _, by simp [hext, bytesOfWords], hj, by rw [hext]; rfl⟩
  case h_3 complete hj =>
    split at h
    case h_2 => cases h
    case h_1 e0 e1 tail' =>
    cases h
    have hext := decodeBase_extAgrees hj (wordOfBytes e0 e1)
    exact ⟨_, _, by simp [hext, bytesOfWords], hj, by rw [hext]; rfl⟩

end Sys2Proof

namespace Sys2Proof.Proofs

/-- Settles O3: the decoded bytes are a base word and its extension word, and a class decoder answers only instructions
that have the fields it looks at. -/
theorem decodedBytesHoldTheInstruction : Obligations.DecodedBytesHoldTheInstruction := by
  intro bs i rest h
  obtain ⟨w, d, hbs, hd, hi⟩ := decode_ok h
  obtain ⟨hu, c, dec, hc, hdec, hd⟩ := decodeBase_ok hd
  obtain ⟨hopcode, hmode, hrd, hrs⟩ := (hdec.all_agreeOn rfl hd).of_complete hi
  exact ⟨w, c, hbs, hc, hopcode, hu, hmode, hrd, hrs⟩

/-- Settles O6: both words go to one class decoder, which looks at the fields they agree in. -/
theorem ignoredFieldsDoNotMatter : Obligations.IgnoredFieldsDoNotMatter := by
  intro w w' c hc hopcode hu hu' hmode hrd hrs
  obtain ⟨dec, hdec, heq⟩ := classDecoder_of_opClass hc
  rw [decodeBase_of_unused hu, decodeBase_of_unused hu', heq _ rfl, heq _ hopcode.symm,
    hdec.congr ⟨hopcode, hmode, hrd, hrs⟩]

/-- Settles O7, by evaluating the decoder on the bytes written out. -/
theorem wordsWrittenOutDecode : Obligations.WordsWrittenOutDecode :=
  ⟨rfl, rfl, rfl, rfl, rfl, rfl, rfl, rfl, rfl, rfl, rfl, rfl⟩

end Sys2Proof.Proofs

/-! PROOFS. The step: when there is none, what a fault leaves, and the faults of the fetch and of the execution. -/

namespace Sys2Proof

/-! ## The extension word that a base word asks for -/

/-- An instruction has an extension word exactly when its base word says so (30_encoding.md rule R93). -/
theorem hasExtension_instrFields (i : Instr) : (instrFields i).hasExtension = (instrExt i).isSome := by
  cases i with
  | nop | halt | shl | shr | ret | push | pop => rfl
  | mov rd o | add rd o | sub rd o | and rd o | or rd o | xor rd o | cmp rd o =>
    exact (Laws.BaseWord.value_class _ rd o rfl).2
  | load rd m => exact (Laws.BaseWord.load rd m).2
  | store m rs => exact (Laws.BaseWord.store m rs).2
  | jmp m | jz m | jnz m | jc m | jnc m | jn m | call m => exact (Laws.BaseWord.target_class _ m rfl).2
  | inPort rd p => exact (Laws.BaseWord.inPort rd p).2
  | outPort p rs => exact (Laws.BaseWord.outPort p rs).2

theorem Fields.AgreeOn.hasExtension_eq {c : OpClass} {f g : Fields} (h : f.AgreeOn c g)
    (hc : opClass f.opcode = some c) : f.hasExtension = g.hasExtension := by
  unfold Fields.hasExtension
  rw [← h.opcode, hc]
  cases hu : c.usesMode with
  | false => simp [hu]
  | true => rw [h.mode hu]

/-- A base word with an extension word is decoded to an instruction that waits for it. -/
theorem decodeBase_of_hasExtension {w : Word} (hw : (fieldsOf w).wellFormed = true)
    (he : (fieldsOf w).hasExtension = true) : ∃ k, decodeBase w = .ok (.long k) := by
  rw [← Fields.rejection_eq_none_iff, ← rejectionOf_decodeBase, rejectionOf_eq_none_iff] at hw
  obtain ⟨d, hd⟩ := hw
  cases d with
  | long k => exact ⟨k, hd⟩
  | short i =>
    obtain ⟨-, c, dec, hc, hdec, hd'⟩ := decodeBase_ok hd
    have hagree : (fieldsOf w).AgreeOn c (instrFields i) := hdec.all_agreeOn rfl hd'
    have hext : instrExt i = none := decodeBase_extAgrees hd
    rw [hagree.hasExtension_eq hc, hasExtension_instrFields, hext] at he
    cases he

end Sys2Proof

namespace Sys2Proof.Machine

open Sys2Proof.Claims

/-! ## The fetch -/

theorem fetch16_of_inPlain {a : Word} (s : State) (ha : InPlain a) :
    fetch16 a s = .ok (wordOfBytes (s.byte a) (s.byte (a + 1))) :=
  if_pos ((plainWord_iff a).2 ha)

theorem fetch16_of_not_inPlain {a : Word} (s : State) (ha : 0xEFFF ≤ a.toNat) :
    fetch16 a s = .error (.fetchRegion a) :=
  if_neg fun hp => absurd ((plainWord_iff a).1 hp) (Nat.not_lt.2 ha)

/-- A running state raises the fault of its fetch. -/
theorem step_of_fetchInstr_error {s : State} {r : FaultReason} (hs : Running s) (h : fetchInstr s = .error r) :
    step s = .fault (.raised r) := by
  obtain ⟨hfault, hhalted⟩ := hs
  simp [step, hfault, hhalted, h, raise]

/-- A rejected base word raises the fault of its rejection (60_exceptions.md rule R201). -/
theorem step_of_rejected {s : State} {r : DecodeReason} (hs : Running s) (hpc : InPlain s.pc)
    (h : decodeBase (wordOfBytes (s.byte s.pc) (s.byte (s.pc + 1))) = .error r) :
    step s = .fault (.raised (decodeFault (wordOfBytes (s.byte s.pc) (s.byte (s.pc + 1))) r)) := by
  apply step_of_fetchInstr_error hs
  simp only [fetchInstr, fetch16_of_inPlain s hpc, h]

/-! ## The faults of a data access -/

/-- `a` is no address of a data access (20_memory.md rule R59). -/
theorem not_accessible_iff (a : Word) : ¬ Accessible a ↔ a.toNat = 0xEFFF ∨ 0xF100 ≤ a.toNat := by
  omega

theorem not_accessible_of_region {a : Word} (hio : region a ≠ .io) (hp : plainWord a = false) : ¬ Accessible a := by
  rw [ne_eq, region_io_iff] at hio
  rw [Bool.eq_false_iff, ne_eq, plainWord_iff] at hp
  exact not_or_intro hp hio

theorem region_of_not_accessible {a : Word} (ha : ¬ Accessible a) : region a ≠ .io ∧ plainWord a = false := by
  rw [ne_eq, region_io_iff, Bool.eq_false_iff, ne_eq, plainWord_iff]
  exact ⟨fun h => ha (.inr h), fun h => ha (.inl h)⟩

/-- A data read faults exactly where no data access has a meaning, with its address. -/
theorem memRead_error_iff {a : Word} {s : State} {r : FaultReason} :
    memRead a s = .error r ↔ ¬ Accessible a ∧ r = .dataRegion a := by
  constructor
  · intro h
    rcases memRead_cases a s with ⟨_, e⟩ | ⟨_, e⟩ | ⟨hio, hp, e⟩ <;> cases e.symm.trans h
    exact ⟨not_accessible_of_region hio hp, rfl⟩
  · rintro ⟨ha, rfl⟩
    obtain ⟨hio, hp⟩ := region_of_not_accessible ha
    simp [memRead, hio, hp]

/-- A data write faults exactly where no data access has a meaning, with its address. -/
theorem memWrite_error_iff {a v : Word} {s : State} {r : FaultReason} :
    memWrite a v s = .error r ↔ ¬ Accessible a ∧ r = .dataRegion a := by
  constructor
  · intro h
    rcases memWrite_cases a v s with ⟨_, e⟩ | ⟨_, e⟩ | ⟨hio, hp, e⟩ <;> cases e.symm.trans h
    exact ⟨not_accessible_of_region hio hp, rfl⟩
  · rintro ⟨ha, rfl⟩
    obtain ⟨hio, hp⟩ := region_of_not_accessible ha
    simp [memWrite, hio, hp]

theorem push_error_iff {v : Word} {s : State} {r : FaultReason} :
    push v s = .error r ↔ ¬ Accessible (s.sp - 2) ∧ r = .dataRegion (s.sp - 2) := by
  rw [← memWrite_error_iff (v := v) (s := s)]
  unfold push pushAddress
  split <;> simp_all

theorem pop_error_iff {s : State} {r : FaultReason} :
    pop s = .error r ↔ ¬ Accessible s.sp ∧ r = .dataRegion s.sp := by
  rw [← memRead_error_iff (s := s)]
  unfold pop
  split <;> simp_all

/-- Only a memory operand faults, as the read of it. -/
theorem valueOperand_error_iff {o : Operand} {s : State} {r : FaultReason} :
    valueOperand o s = .error r ↔
      ∃ m, o = .mem m ∧ ¬ Accessible (effectiveAddress m s) ∧ r = .dataRegion (effectiveAddress m s) := by
  cases o with
  | reg | imm => simp [valueOperand]
  | mem m => simp only [valueOperand, memRead_error_iff, Operand.mem.injEq, exists_eq_left']

/-! ## Ports -/

theorem inWindow_portAddress {p : Word} (hp : p.toNat ≤ 0x00FF) : InWindow (portAddress p) := by
  unfold portAddress
  constructor <;> bv_omega

theorem portInRange_iff (p : Word) : portInRange p = true ↔ p.toNat ≤ 0x00FF := decide_eq_true_iff

theorem execInPort_of_inRange {rd : Reg} {p : PortOperand} {s : State} (hp : (portNumber p s).toNat ≤ 0x00FF) :
    execInPort rd p s = finishWith (memRead (portAddress (portNumber p s)) s) fun v t => t.setReg rd v :=
  if_pos ((portInRange_iff _).2 hp)

theorem execOutPort_of_inRange {rs : Reg} {p : PortOperand} {s : State} (hp : (portNumber p s).toNat ≤ 0x00FF) :
    execOutPort p rs s = finish (memWrite (portAddress (portNumber p s)) (s.reg rs) s) :=
  if_pos ((portInRange_iff _).2 hp)

theorem execInPort_of_outOfRange {rd : Reg} {p : PortOperand} {s : State} (hp : 0x00FF < (portNumber p s).toNat) :
    execInPort rd p s = raise (.ioPortRange (portNumber p s)) :=
  if_neg fun h => absurd ((portInRange_iff _).1 h) (Nat.not_le.2 hp)

theorem execOutPort_of_outOfRange {rs : Reg} {p : PortOperand} {s : State} (hp : 0x00FF < (portNumber p s).toNat) :
    execOutPort p rs s = raise (.ioPortRange (portNumber p s)) :=
  if_neg fun h => absurd ((portInRange_iff _).1 h) (Nat.not_le.2 hp)

/-! ## The faults of an instruction -/

theorem finish_fault {x : Except FaultReason State} {f : Fault} (h : finish x = .fault f) :
    ∃ r, x = .error r ∧ f = .raised r := by
  cases x with
  | error r => cases h; exact ⟨r, rfl, rfl⟩
  | ok => cases h

theorem finishWith_fault {x : Except FaultReason (Word × State)} {k : Word → State → State} {f : Fault}
    (h : finishWith x k = .fault f) : ∃ r, x = .error r ∧ f = .raised r := by
  cases x with
  | error r => cases h; exact ⟨r, rfl, rfl⟩
  | ok => cases h

/-- An instruction that faults: a port number out of range, or a data access with no meaning. -/
theorem exec_fault {i : Instr} {s : State} {f : Fault} (h : exec i s = .fault f) :
    match i with
    | .mov _ o | .add _ o | .sub _ o | .and _ o | .or _ o | .xor _ o | .cmp _ o =>
      ∃ r, valueOperand o s = .error r ∧ f = .raised r
    | .load _ m => ∃ r, memRead (effectiveAddress m s) s = .error r ∧ f = .raised r
    | .store m rs => ∃ r, memWrite (effectiveAddress m s) (s.reg rs) s = .error r ∧ f = .raised r
    | .call _ => ∃ r, push s.pc s = .error r ∧ f = .raised r
    | .push rs => ∃ r, push (s.reg rs) s = .error r ∧ f = .raised r
    | .ret | .pop _ => ∃ r, pop s = .error r ∧ f = .raised r
    | .inPort _ p | .outPort p _ => 0x00FF < (portNumber p s).toNat ∧ f = .raised (.ioPortRange (portNumber p s))
    | .nop | .halt | .shl _ | .shr _ | .jmp _ | .jz _ | .jnz _ | .jc _ | .jnc _ | .jn _ => False := by
  cases i with
  | nop | halt | shl | shr | jmp | jz | jnz | jc | jnc | jn => cases h
  | mov | add | sub | and | or | xor | cmp | load | ret | pop => exact finishWith_fault h
  | store | push => exact finish_fault h
  | call m =>
    rw [exec, execCall_eq] at h
    obtain ⟨r, hr, rfl⟩ := finish_fault h
    cases hpush : push s.pc s with
    | error q => rw [hpush] at hr; cases hr; exact ⟨_, rfl, rfl⟩
    | ok => rw [hpush] at hr; cases hr
  | inPort rd p =>
    rcases Nat.lt_or_ge 0x00FF (portNumber p s).toNat with hp | hp
    · rw [exec, execInPort_of_outOfRange hp] at h
      cases h
      exact ⟨hp, rfl⟩
    · rw [exec, execInPort_of_inRange hp] at h
      obtain ⟨r, hr, -⟩ := finishWith_fault h
      exact absurd (.inr (inWindow_portAddress hp)) (memRead_error_iff.1 hr).1
  | outPort p rs =>
    rcases Nat.lt_or_ge 0x00FF (portNumber p s).toNat with hp | hp
    · rw [exec, execOutPort_of_outOfRange hp] at h
      cases h
      exact ⟨hp, rfl⟩
    · rw [exec, execOutPort_of_inRange hp] at h
      obtain ⟨r, hr, -⟩ := finish_fault h
      exact absurd (.inr (inWindow_portAddress hp)) (memWrite_error_iff.1 hr).1

/-- An instruction answers a next state or raises a fault. -/
def Answers (r : Result) : Prop := (∃ t, r = .next t) ∨ ∃ q, r = .fault (.raised q)

theorem answers_finish (x : Except FaultReason State) : Answers (finish x) := by
  cases x with
  | error r => exact .inr ⟨r, rfl⟩
  | ok t => exact .inl ⟨t, rfl⟩

theorem answers_finishWith (x : Except FaultReason (Word × State)) (k : Word → State → State) :
    Answers (finishWith x k) := by
  cases x with
  | error r => exact .inr ⟨r, rfl⟩
  | ok p => exact .inl ⟨k p.1 p.2, rfl⟩

theorem exec_answers (i : Instr) (s : State) : Answers (exec i s) := by
  cases i with
  | nop | halt | shl | shr | jmp | jz | jnz | jc | jnc | jn => exact .inl ⟨_, rfl⟩
  | mov | add | sub | and | or | xor | cmp | load | ret | pop => exact answers_finishWith _ _
  | store | push => exact answers_finish _
  | call m => rw [exec, execCall_eq]; exact answers_finish _
  | inPort rd p =>
    rw [exec, execInPort]
    split
    · exact answers_finishWith _ _
    · exact .inr ⟨_, rfl⟩
  | outPort p rs =>
    rw [exec, execOutPort]
    split
    · exact answers_finish _
    · exact .inr ⟨_, rfl⟩

/-- A running state takes a step or raises a fault. -/
theorem step_answers {s : State} (hs : Running s) : Answers (step s) := by
  cases h : fetchInstr s with
  | error r => exact .inr ⟨r, step_of_fetchInstr_error hs h⟩
  | ok p => rw [step_of_fetchInstr hs h]; exact exec_answers _ _

theorem step_of_fault {s : State} {r : FaultReason} (h : s.fault = some r) : step s = .fault (.stuckFaulted r) := by
  simp [step, h]

theorem step_of_halted {s : State} (hf : s.fault = none) (hh : s.halted = true) : step s = .fault .stuckHalted := by
  simp [step, hf, hh]

/-- Everything a step can be (60_exceptions.md rule R200, 40_nop_halt.md rule R131). -/
theorem step_cases (s : State) :
    (∃ r, s.fault = some r ∧ step s = .fault (.stuckFaulted r)) ∨
      (s.fault = none ∧ s.halted = true ∧ step s = .fault .stuckHalted) ∨ (Running s ∧ Answers (step s)) := by
  cases hf : s.fault with
  | some r => exact .inl ⟨r, rfl, step_of_fault hf⟩
  | none =>
    cases hh : s.halted with
    | true => exact .inr (.inl ⟨rfl, rfl, step_of_halted hf hh⟩)
    | false => exact .inr (.inr ⟨⟨hf, hh⟩, step_answers ⟨hf, hh⟩⟩)

end Sys2Proof.Machine

namespace Sys2Proof.Proofs

open Sys2Proof.Machine Sys2Proof.Claims

/-- Settles O9: the fetch that fails is the base word's, or the extension word's that the base word asks for. -/
theorem fetchOutsidePlainMemoryFaults : Obligations.FetchOutsidePlainMemoryFaults := by
  constructor
  · intro s hs hpc
    apply step_of_fetchInstr_error hs
    simp only [fetchInstr, fetch16_of_not_inPlain s hpc]
  · intro s hs hpc hw he hext
    obtain ⟨k, hk⟩ := decodeBase_of_hasExtension hw he
    apply step_of_fetchInstr_error hs
    simp only [fetchInstr, fetch16_of_inPlain s hpc, hk, fetch16_of_not_inPlain s hext]

/-- Settles O10: each rejection has its fault. -/
theorem rejectedWordFaults : Obligations.RejectedWordFaults := by
  rintro s _ hs hpc rfl
  exact ⟨step_of_rejected hs hpc, step_of_rejected hs hpc, step_of_rejected hs hpc, step_of_rejected hs hpc,
    step_of_rejected hs hpc⟩

/-- Settles O11, by everything a step can be. -/
theorem onlyEndedStatesHaveNoStep : Obligations.OnlyEndedStatesHaveNoStep := by
  intro s
  rcases step_cases s with ⟨q, hf, e⟩ | ⟨hf, hh, e⟩ | ⟨⟨hf, hh⟩, ⟨t, e⟩ | ⟨q, e⟩⟩ <;> simp [*]

/-- Settles O12: only a running state raises a fault, and `advance` records it. -/
theorem faultsArePreciseAndFinal : Obligations.FaultsArePreciseAndFinal := by
  intro s r h
  rcases step_cases s with ⟨q, _, e⟩ | ⟨_, _, e⟩ | ⟨⟨hf, hh⟩, _⟩
  · cases e.symm.trans h
  · cases e.symm.trans h
  · have hadv : advance s = s.recordFault r := by rw [advance, h]; rfl
    have hstuck : step (advance s) = .fault (.stuckFaulted r) := by rw [hadv]; exact step_of_fault rfl
    refine ⟨hf, hh, hadv, hstuck, ?_⟩
    rw [advance, hstuck]
    rfl

/-- Settles O13, by everything a step can be. -/
theorem stepNeverRefuses : Obligations.StepNeverRefuses := by
  intro s q h
  rcases step_cases s with ⟨r, _, e⟩ | ⟨_, _, e⟩ | ⟨_, ⟨t, e⟩ | ⟨r, e⟩⟩ <;> cases e.symm.trans h

/-- Settles O14: each instruction faults with its port number or at the address of its one data access. -/
theorem executionFaultsAsTabled : Obligations.ExecutionFaultsAsTabled := by
  intro i s f h
  cases i with
  | nop | halt | shl | shr | jmp | jz | jnz | jc | jnc | jn => exact (exec_fault h).elim
  | mov rd o | add rd o | sub rd o | and rd o | or rd o | xor rd o | cmp rd o =>
    obtain ⟨_, hr, rfl⟩ := exec_fault h
    obtain ⟨m, rfl, ha, rfl⟩ := valueOperand_error_iff.1 hr
    exact .inr ⟨_, rfl, (not_accessible_iff _).1 ha, .inl ⟨m, ⟨rd, by simp⟩, rfl⟩⟩
  | load rd m =>
    obtain ⟨_, hr, rfl⟩ := exec_fault h
    obtain ⟨ha, rfl⟩ := memRead_error_iff.1 hr
    exact .inr ⟨_, rfl, (not_accessible_iff _).1 ha, .inl ⟨m, ⟨rd, by simp⟩, rfl⟩⟩
  | store m rs =>
    obtain ⟨_, hr, rfl⟩ := exec_fault h
    obtain ⟨ha, rfl⟩ := memWrite_error_iff.1 hr
    exact .inr ⟨_, rfl, (not_accessible_iff _).1 ha, .inr (.inl ⟨m, rs, rfl, rfl⟩)⟩
  | push rs =>
    obtain ⟨_, hr, rfl⟩ := exec_fault h
    obtain ⟨ha, rfl⟩ := push_error_iff.1 hr
    exact .inr ⟨_, rfl, (not_accessible_iff _).1 ha, .inr (.inr (.inl ⟨.inl ⟨rs, rfl⟩, rfl⟩))⟩
  | call m =>
    obtain ⟨_, hr, rfl⟩ := exec_fault h
    obtain ⟨ha, rfl⟩ := push_error_iff.1 hr
    exact .inr ⟨_, rfl, (not_accessible_iff _).1 ha, .inr (.inr (.inl ⟨.inr ⟨m, rfl⟩, rfl⟩))⟩
  | pop rd =>
    obtain ⟨_, hr, rfl⟩ := exec_fault h
    obtain ⟨ha, rfl⟩ := pop_error_iff.1 hr
    exact .inr ⟨_, rfl, (not_accessible_iff _).1 ha, .inr (.inr (.inr ⟨.inl ⟨rd, rfl⟩, rfl⟩))⟩
  | ret =>
    obtain ⟨_, hr, rfl⟩ := exec_fault h
    obtain ⟨ha, rfl⟩ := pop_error_iff.1 hr
    exact .inr ⟨_, rfl, (not_accessible_iff _).1 ha, .inr (.inr (.inr ⟨.inr rfl, rfl⟩))⟩
  | inPort rd p =>
    obtain ⟨hp, rfl⟩ := exec_fault h
    exact .inl ⟨_, p, rfl, hp, rfl, .inl ⟨rd, rfl⟩⟩
  | outPort p rs =>
    obtain ⟨hp, rfl⟩ := exec_fault h
    exact .inl ⟨_, p, rfl, hp, rfl, .inr ⟨rs, rfl⟩⟩

/-- Settles O58: the range of the port number is checked before the access. -/
theorem portOutOfRangeFaults : Obligations.PortOutOfRangeFaults :=
  fun _ _ _ hp => ⟨execInPort_of_outOfRange hp, execOutPort_of_outOfRange hp⟩

end Sys2Proof.Proofs

/-! PROOFS. What every step and every instruction keeps: the invariant, the bookkeeping, the registers, the flags and the bytes of memory. -/

namespace Sys2Proof.Machine

open Sys2Proof.Claims Sys2Proof.Safety

/-! ## The invariant -/

/-- The one data access of an instruction keeps the invariant. -/
theorem Effect.keeps_inv {s t : State} (h : Effect s t) (hs : Safety.Inv s) : Safety.Inv t := by
  obtain ⟨hwf, htrace⟩ := hs
  rcases h.bus with ⟨hm, ht⟩ | ⟨a, v, ha, hm, ht⟩ | ⟨e, he, hm, ht⟩ <;> rw [Safety.Inv, hm, ht]
  · exact ⟨hwf, htrace⟩
  · exact ⟨Memory.wf_writeWord v hwf ha, htrace⟩
  · refine ⟨hwf, fun x hx => ?_⟩
    rcases List.mem_append.1 hx with hx | hx
    · exact htrace x hx
    · rw [List.mem_singleton.1 hx]
      exact he

/-! ## `halted` -/

theorem memRead_halted {a v : Word} {s t : State} (h : memRead a s = .ok (v, t)) : t.halted = s.halted := by
  rcases memRead_state h with rfl | rfl <;> rfl

theorem memWrite_halted {a v : Word} {s t : State} (h : memWrite a v s = .ok t) : t.halted = s.halted := by
  rcases memWrite_ok h with ⟨_, rfl⟩ | ⟨_, rfl⟩ <;> rfl

theorem valueOperand_halted {o : Operand} {s t : State} {v : Word} (h : valueOperand o s = .ok (v, t)) :
    t.halted = s.halted := by
  rcases valueOperand_state h with rfl | ⟨_, _, rfl⟩ <;> rfl

/-- No instruction but HALT writes `halted` (40_nop_halt.md rule R131). -/
theorem exec_keeps_halted {i : Instr} {s t : State} (h : exec i s = .next t) (hi : i ≠ .halt) :
    t.halted = s.halted := by
  cases i with
  | nop | shl | shr | jmp => obtain rfl : t = _ := exec_next h; rfl
  | halt => exact absurd rfl hi
  | mov | add | sub | and | or | xor | cmp => obtain ⟨_, _, hu, rfl⟩ := exec_next h; exact (valueOperand_halted hu :)
  | load | ret | pop => obtain ⟨_, _, hu, rfl⟩ := exec_next h; exact (memRead_halted hu :)
  | store => exact memWrite_halted (exec_next h)
  | jz | jnz | jc | jnc | jn => rcases exec_next h with rfl | rfl <;> rfl
  | call | push => obtain ⟨_, hu, rfl⟩ := exec_next h; exact (memWrite_halted hu :)
  | inPort => obtain ⟨_, _, hu, rfl, _⟩ := exec_next h; exact (memRead_halted hu :)
  | outPort => exact memWrite_halted (exec_next h).1

/-! ## Registers -/

theorem SameCore.reg_eq {s t : State} (h : SameCore s t) (q : Reg) : t.reg q = s.reg q :=
  congrArg (Regs.get · q) h.regs

/-- Writing a register keeps every other one. -/
theorem SameCore.setReg_reg_eq {s u : State} (h : SameCore s u) {rd q : Reg} (v : Word) (hq : some rd ≠ some q) :
    (u.setReg rd v).reg q = s.reg q :=
  (u.setReg_reg_other v fun e => hq (congrArg some e.symm)).trans (h.reg_eq q)

theorem sameCore_refl (s : State) : SameCore s s := ⟨rfl, rfl, rfl, rfl⟩

/-- An instruction writes no general register but its destination (10_state.md rule R22). -/
theorem exec_keeps_reg {i : Instr} {s t : State} {q : Reg} (h : exec i s = .next t) (hq : destination i ≠ some q) :
    t.reg q = s.reg q := by
  cases i with
  | nop | halt | jmp => obtain rfl : t = _ := exec_next h; rfl
  | shl | shr => obtain rfl : t = _ := exec_next h; exact (sameCore_refl s).setReg_reg_eq _ hq
  | mov | add | sub | and | or | xor =>
    obtain ⟨_, _, hu, rfl⟩ := exec_next h
    exact (valueOperand_sameCore hu).setReg_reg_eq _ hq
  | cmp => obtain ⟨_, _, hu, rfl⟩ := exec_next h; exact (valueOperand_sameCore hu).reg_eq q
  | load | pop => obtain ⟨_, _, hu, rfl⟩ := exec_next h; exact (memRead_sameCore hu).setReg_reg_eq _ hq
  | ret => obtain ⟨_, _, hu, rfl⟩ := exec_next h; exact (memRead_sameCore hu).reg_eq q
  | store => exact (memWrite_sameCore (exec_next h)).reg_eq q
  | jz | jnz | jc | jnc | jn => rcases exec_next h with rfl | rfl <;> rfl
  | call | push => obtain ⟨_, hu, rfl⟩ := exec_next h; exact (memWrite_sameCore hu).reg_eq q
  | inPort => obtain ⟨_, _, hu, rfl, _⟩ := exec_next h; exact (memRead_sameCore hu).setReg_reg_eq _ hq
  | outPort => exact (memWrite_sameCore (exec_next h).1).reg_eq q

/-! ## Flags -/

/-- The instructions of the last row of 10_state.md rule R29 write no flag. -/
theorem exec_keeps_flags {i : Instr} {s t : State} (h : exec i s = .next t) (hi : writesNoFlag i = true) :
    t.flags = s.flags := by
  cases i with
  | nop | halt | jmp => obtain rfl : t = _ := exec_next h; rfl
  | mov => obtain ⟨_, _, hu, rfl⟩ := exec_next h; exact (valueOperand_sameCore hu).flags
  | load | add | sub | and | or | xor | cmp | shl | shr => cases hi
  | store => exact (memWrite_sameCore (exec_next h)).flags
  | jz | jnz | jc | jnc | jn => rcases exec_next h with rfl | rfl <;> rfl
  | call | push => obtain ⟨_, hu, rfl⟩ := exec_next h; exact (memWrite_sameCore hu).flags
  | ret | pop => obtain ⟨_, _, hu, rfl⟩ := exec_next h; exact (memRead_sameCore hu).flags
  | inPort => obtain ⟨_, _, hu, rfl, _⟩ := exec_next h; exact (memRead_sameCore hu).flags
  | outPort => exact (memWrite_sameCore (exec_next h).1).flags

/-! ## Memory and the trace -/

/-- `t` has the memory of `s`, and its trace with at most one transaction with the window after it. -/
structure StoresNothing (s t : State) : Prop where
  mem : t.mem = s.mem
  ioTrace : t.ioTrace = s.ioTrace ∨ ∃ e, t.ioTrace = s.ioTrace ++ [e] ∧ eventInWindow e = true

theorem storesNothing_of_memRead {a v : Word} {s t u : State} (h : memRead a s = .ok (v, u)) (hm : t.mem = u.mem)
    (ht : t.ioTrace = u.ioTrace) : StoresNothing s t := by
  rcases memRead_ok h with ⟨hio, _, rfl⟩ | ⟨_, _, rfl⟩
  · exact ⟨hm, .inr ⟨.read a v, ht, decide_eq_true hio⟩⟩
  · exact ⟨hm, .inl ht⟩

theorem storesNothing_of_valueOperand {o : Operand} {v : Word} {s t u : State} (h : valueOperand o s = .ok (v, u))
    (hm : t.mem = u.mem) (ht : t.ioTrace = u.ioTrace) : StoresNothing s t := by
  rcases valueOperand_state h with rfl | ⟨a, hio, rfl⟩
  · exact ⟨hm, .inl ht⟩
  · exact ⟨hm, .inr ⟨.read a v, ht, decide_eq_true hio⟩⟩

/-- An instruction without a store address stores nothing (20_memory.md rule R63). -/
theorem exec_storesNothing {i : Instr} {s t : State} (h : exec i s = .next t) (hi : storeAddress i s = none) :
    StoresNothing s t := by
  cases i with
  | nop | halt | shl | shr | jmp => obtain rfl : t = _ := exec_next h; exact ⟨rfl, .inl rfl⟩
  | mov | add | sub | and | or | xor | cmp =>
    obtain ⟨_, _, hu, rfl⟩ := exec_next h
    exact storesNothing_of_valueOperand hu rfl rfl
  | load | ret | pop => obtain ⟨_, _, hu, rfl⟩ := exec_next h; exact storesNothing_of_memRead hu rfl rfl
  | store | call | push => cases hi
  | jz | jnz | jc | jnc | jn => rcases exec_next h with rfl | rfl <;> exact ⟨rfl, .inl rfl⟩
  | inPort => obtain ⟨_, _, hu, rfl, _⟩ := exec_next h; exact storesNothing_of_memRead hu rfl rfl
  | outPort p rs =>
    obtain ⟨hu, hp⟩ := exec_next h
    have hio := (region_io_iff _).2 (inWindow_portAddress hp)
    rcases memWrite_ok hu with ⟨_, rfl⟩ | ⟨hplain, _⟩
    · exact ⟨rfl, .inr ⟨_, rfl, decide_eq_true hio⟩⟩
    · exact absurd hio (not_io_of_plainWord hplain)

/-- An instruction with a store address makes one data write, to it. -/
theorem exec_stores {i : Instr} {s t : State} {a : Word} (h : exec i s = .next t) (hi : storeAddress i s = some a) :
    ∃ v u, memWrite a v s = .ok u ∧ t.mem = u.mem ∧ t.ioTrace = u.ioTrace := by
  cases i with
  | store => cases hi; exact ⟨_, _, exec_next h, rfl, rfl⟩
  | call | push => cases hi; obtain ⟨u, hu, rfl⟩ := exec_next h; exact ⟨_, u, hu, rfl, rfl⟩
  | _ => cases hi

theorem byte_eq_of_mem_eq {s t : State} (h : t.mem = s.mem) (x : Word) : t.byte x = s.byte x :=
  congrArg (Memory.read · x.toNat) h

/-- What a data write that answers leaves of memory and the trace (20_memory.md rule R62). -/
theorem memWrite_bus {a v : Word} {s t u : State} (h : memWrite a v s = .ok u) (hm : t.mem = u.mem)
    (ht : t.ioTrace = u.ioTrace) :
    (InWindow a ∧ (∀ x, t.byte x = s.byte x) ∧ t.ioTrace = s.ioTrace ++ [.write a v]) ∨
      (InPlain a ∧ (∀ x, x ≠ a → x ≠ a + 1 → t.byte x = s.byte x) ∧ t.ioTrace = s.ioTrace) := by
  rcases memWrite_ok h with ⟨hio, rfl⟩ | ⟨hp, rfl⟩
  · exact .inl ⟨(region_io_iff a).1 hio, byte_eq_of_mem_eq hm, ht⟩
  · exact .inr ⟨(plainWord_iff a).1 hp,
      fun x hlow hhigh => (byte_eq_of_mem_eq hm x).trans (byte_writeWord_other s v hlow hhigh), ht⟩

theorem not_inWindow_of_inPlain {a : Word} (hp : InPlain a) : ¬ InWindow a := by omega

end Sys2Proof.Machine

namespace Sys2Proof.Proofs

open Sys2Proof.Machine Sys2Proof.Claims Sys2Proof.Safety

/-- Settles O15: the step's instruction makes at most one data access. -/
theorem stepKeepsTheInvariant : Obligations.StepKeepsTheInvariant := by
  intro s t hs h
  obtain ⟨-, -, i, next, -, he⟩ := step_next h
  exact (exec_effect he).keeps_inv hs

/-- Settles O16: after reset the memory is the chosen one and the trace is empty. -/
theorem resetHasTheInvariant : Obligations.ResetHasTheInvariant := by
  have hreset : ∀ p : ResetChoice, p.memInit.wf → Safety.Inv (State.resetWith p) := fun _ hp => ⟨hp, nofun⟩
  exact ⟨hreset, hreset _ Memory.wf_nil⟩

/-- Settles O17, by what an instruction does to the bookkeeping. -/
theorem stepKeepsRunBookkeeping : Obligations.StepKeepsRunBookkeeping := by
  constructor
  · intro s t h
    obtain ⟨hf, hh, i, next, -, he⟩ := step_next h
    exact ⟨hf, hh, (exec_effect he).fault.trans hf⟩
  · intro i s t h
    refine ⟨(exec_effect h).fault, exec_keeps_halted h, ?_⟩
    rintro rfl
    obtain rfl : t = _ := exec_next h
    rfl

/-- Settles O18, by the two cases of the store address of the fetched instruction. -/
theorem oneDataAccessPerStep : Obligations.OneDataAccessPerStep := by
  intro s t h
  obtain ⟨-, -, i, next, hi, he⟩ := step_next h
  refine ⟨i, next, hi, fun hnone => ?_, fun a ha => ?_⟩
  · obtain ⟨hm, ht⟩ := exec_storesNothing he hnone
    exact ⟨byte_eq_of_mem_eq hm, ht⟩
  · obtain ⟨v, u, hw, hm, ht⟩ := exec_stores he ha
    rcases memWrite_bus hw hm ht with ⟨hio, hb, htr⟩ | ⟨hp, hb, htr⟩
    · exact ⟨.inr hio, fun _ => ⟨hb, v, htr⟩, fun hp => absurd hio (not_inWindow_of_inPlain hp)⟩
    · exact ⟨.inl hp, fun hio => absurd hio (not_inWindow_of_inPlain hp), fun _ => ⟨hb, htr⟩⟩

/-- Settles O19, by the register each instruction that answers writes. -/
theorem onlyTheDestinationRegisterChanges : Obligations.OnlyTheDestinationRegisterChanges :=
  fun _ _ _ _ => exec_keeps_reg

/-- Settles O20, by the flags of each class of flag writers. -/
theorem flagsChangeOnlyAsTabled : Obligations.FlagsChangeOnlyAsTabled := by
  intro i s t h
  refine ⟨exec_keeps_flags h, fun rd o hi => ?_, fun rd hi => ?_, fun rd m hi => ?_, fun rd m u hu => ?_⟩
  · rcases hi with rfl | rfl | rfl <;> obtain ⟨_, _, _, rfl⟩ := exec_next h <;> exact ⟨rfl, rfl⟩
  · rcases hi with rfl | rfl <;> obtain rfl : t = _ := exec_next h <;> rfl
  · subst hi
    obtain ⟨v, _, _, rfl⟩ := exec_next h
    refine ⟨rfl, rfl, ?_⟩
    cases Config.loadUpdatesZN
    · exact .inr rfl
    · exact .inl rfl
  · obtain ⟨_, _, _, rfl⟩ := finishWith_next hu
    rfl

/-- Settles O24: an instruction without a store address keeps memory. -/
theorem otherInstructionsKeepMemory : Obligations.OtherInstructionsKeepMemory :=
  fun _ _ _ h hi => byte_eq_of_mem_eq (exec_storesNothing h hi).mem

/-- Settles O25, by the one data write of the instruction. -/
theorem storesTouchOnlyTheirWord : Obligations.StoresTouchOnlyTheirWord := by
  intro i s t a h ha
  obtain ⟨v, u, hw, hm, ht⟩ := exec_stores h ha
  rcases memWrite_bus hw hm ht with ⟨hio, hb, -⟩ | ⟨hp, hb, -⟩
  · exact ⟨fun x _ _ => hb x, fun _ => hb⟩
  · exact ⟨hb, fun hio => absurd hio (not_inWindow_of_inPlain hp)⟩

end Sys2Proof.Proofs

/-! PROOFS. The data accesses and operands, and what each instruction answers where they have a meaning. -/

namespace Sys2Proof.Machine

open Sys2Proof.Claims Sys2Proof.Safety

/-! ## Data accesses that answer -/

theorem memRead_of_inWindow {a : Word} (s : State) (ha : InWindow a) :
    memRead a s = .ok (ioAnswer a s, s.logRead a (ioAnswer a s)) :=
  if_pos ((region_io_iff a).2 ha)

theorem memWrite_of_inWindow {a : Word} (v : Word) (s : State) (ha : InWindow a) :
    memWrite a v s = .ok (s.logWrite a v) :=
  if_pos ((region_io_iff a).2 ha)

/-- A data read that has a meaning delivers the word at its address (20_memory.md rule R61). -/
theorem memRead_of_accessible {a : Word} {s : State} (ha : Accessible a) :
    memRead a s = .ok (wordAt a s, afterRead a s) := by
  rcases ha with hp | hio
  · have hread := memRead_of_inPlain s hp
    rw [hread, memRead_value hread, afterRead, if_neg (not_inWindow_of_inPlain hp)]
  · rw [memRead_of_inWindow s hio, wordAt, if_pos hio, afterRead, if_pos hio]
    rfl

/-- A data write that has a meaning writes the word at its address (20_memory.md rule R62). -/
theorem memWrite_of_accessible {a : Word} (v : Word) (s : State) (ha : Accessible a) :
    ∃ t, memWrite a v s = .ok t ∧ WrittenAt a v s t := by
  rcases ha with hp | hio
  · refine ⟨_, memWrite_of_inPlain v s hp, fun hio => absurd hio (not_inWindow_of_inPlain hp),
      fun _ => ⟨rfl, ?_, ?_, ?_⟩⟩
    · rw [byte_writeWord_low, lowByte_toNat]
    · rw [byte_writeWord_high, highByte_toNat]
    · exact fun x => byte_writeWord_other s v
  · exact ⟨_, memWrite_of_inWindow v s hio, fun _ => rfl, fun hp => absurd hio (not_inWindow_of_inPlain hp)⟩

theorem afterRead_sameCore (a : Word) (s : State) : SameCore s (afterRead a s) := by
  unfold afterRead
  split <;> exact ⟨rfl, rfl, rfl, rfl⟩

theorem afterOperand_sameCore (o : Operand) (s : State) : SameCore s (afterOperand o s) := by
  cases o with
  | reg | imm => exact sameCore_refl s
  | mem m => exact afterRead_sameCore _ s

/-- A readable operand delivers its value (30_encoding.md rule R100). -/
theorem valueOperand_of_readable {o : Operand} {s : State} (ho : OperandReadable o s) :
    valueOperand o s = .ok (operandValue o s, afterOperand o s) := by
  cases o with
  | reg | imm => rfl
  | mem m => exact memRead_of_accessible ho

theorem push_of_accessible (v : Word) (s : State) (ha : Accessible (s.sp - 2)) :
    ∃ u, WrittenAt (s.sp - 2) v s u ∧ push v s = .ok (u.setSp (s.sp - 2)) := by
  obtain ⟨u, hu, hw⟩ := memWrite_of_accessible v s ha
  exact ⟨u, hw, by simp only [push, pushAddress, hu]⟩

theorem pop_of_accessible {s : State} (ha : Accessible s.sp) :
    pop s = .ok (wordAt s.sp s, (afterRead s.sp s).setSp (s.sp + 2)) := by
  simp only [pop, memRead_of_accessible ha]

/-! ## Characters printed -/

theorem printed_append (l l' : List IoEvent) : printed (l ++ l') = printed l ++ printed l' := by
  induction l with
  | nil => rfl
  | cons e rest ih =>
    cases e with
    | read => exact ih
    | write a v =>
      simp only [List.cons_append, printed, ih]
      split <;> rfl

/-- A write to port `p` prints the low byte of the word if `p` is 0, and else nothing (20_memory.md rule R68). -/
theorem printed_write_port (p v : Word) :
    printed [.write (0xF000 + p) v] = if p = 0 then [v.setWidth 8] else [] := by
  have hp : (0xF000 + p = 0xF000) ↔ p = 0 := by constructor <;> intro h <;> bv_omega
  simp only [printed, hp, lowByte, BitVec.setWidth_eq_extractLsb' (show 8 ≤ 16 by decide)]

/-! ## Instructions whose data access faults -/

theorem finishWith_error {x : Except FaultReason (Word × State)} {r : FaultReason} (k : Word → State → State)
    (h : x = .error r) : finishWith x k = .fault (.raised r) := by
  subst h
  rfl

theorem finish_error {x : Except FaultReason State} {r : FaultReason} (h : x = .error r) :
    finish x = .fault (.raised r) := by
  subst h
  rfl

end Sys2Proof.Machine

namespace Sys2Proof.Proofs

open Sys2Proof.Machine Sys2Proof.Claims Sys2Proof.Safety

/-- Settles O28, by the error of each access primitive. -/
theorem dataAccessFaultsExactly : Obligations.DataAccessFaultsExactly := by
  intro a v s r
  rw [memRead_error_iff, memWrite_error_iff, not_accessible_iff]
  refine ⟨Iff.rfl, Iff.rfl, fun h => ?_, fun h => ?_⟩
  · rcases fetch16_cases a s with ⟨_, e⟩ | ⟨hp, e⟩ <;> cases e.symm.trans h
    rw [Bool.eq_false_iff, ne_eq, plainWord_iff] at hp
    exact ⟨Nat.not_lt.1 hp, rfl⟩
  · obtain ⟨ha, rfl⟩ := h
    exact fetch16_of_not_inPlain s ha

/-- Settles O29: a read and a write of the window are one logged event each. -/
theorem windowAccessIsOneTransaction : Obligations.WindowAccessIsOneTransaction :=
  fun _ v s ha => ⟨⟨_, rfl, memRead_of_inWindow s ha⟩, memWrite_of_inWindow v s ha⟩

/-- Settles O30: the store writes the word that the fetch reads back. -/
theorem storeIsSeenByTheNextFetch : Obligations.StoreIsSeenByTheNextFetch := by
  intro dst rs s t h ha
  have hw : memWrite (effectiveAddress dst s) (s.reg rs) s = .ok t := exec_next h
  rw [memWrite_of_inPlain _ s ha] at hw
  cases hw
  rw [fetch16, if_pos ((plainWord_iff _).2 ha), State.setMem_mem, Memory.readWord_writeWord]

/-- Settles O31: OUT and STORE alike make one write to the window address of the port. -/
theorem outputRegisterPrintsTheLowByte : Obligations.OutputRegisterPrintsTheLowByte := by
  intro rs port m s t p hp h
  have hw : memWrite (0xF000 + p) (s.reg rs) s = .ok t := by
    rcases h with ⟨rfl, h⟩ | ⟨ha, h⟩
    · exact (exec_next h).1
    · rw [ha]; exact exec_next h
  have hio : InWindow (0xF000 + p) := inWindow_portAddress hp
  rw [memWrite_of_inWindow _ s hio] at hw
  cases hw
  rw [State.logWrite_ioTrace, printed_append, printed_write_port]

/-- Settles O32, by evaluating the reset state. -/
theorem resetValues : Obligations.ResetValues :=
  ⟨fun _ => ⟨rfl, rfl, rfl, rfl, rfl, rfl, rfl, rfl⟩, rfl, rfl, rfl⟩

/-- Settles O33, by the signed offset added as a number. -/
theorem effectiveAddressOfEachMode : Obligations.EffectiveAddressOfEachMode :=
  fun s b ext => ⟨rfl, rfl, addSigned_toNat (s.reg b) ext, addSigned_toNat s.pc ext⟩

/-- Settles O34, by the error of each access primitive. -/
theorem inaccessibleOperandsFault : Obligations.InaccessibleOperandsFault := by
  intro m rd s
  refine ⟨fun ha i hi => ?_, fun ha i hi => ?_, fun ha i hi => ?_⟩ <;>
    simp only [List.mem_cons, List.not_mem_nil, or_false] at hi
  · have hread : valueOperand (.mem m) s = .error (.dataRegion (effectiveAddress m s)) :=
      memRead_error_iff.2 ⟨ha, rfl⟩
    rcases hi with rfl | rfl | rfl | hi
    · exact finishWith_error _ hread
    · exact finishWith_error _ hread
    · exact finish_error (memWrite_error_iff.2 ⟨ha, rfl⟩)
    · rcases hi with rfl | rfl | rfl | rfl | rfl | rfl <;> exact finishWith_error _ hread
  · have hpush : ∀ v, push v s = .error (.dataRegion (s.sp - 2)) := fun _ => push_error_iff.2 ⟨ha, rfl⟩
    rcases hi with rfl | rfl
    · exact finish_error (hpush _)
    · rw [exec, execCall_eq, hpush]; rfl
  · rcases hi with rfl | rfl <;> exact finishWith_error _ (pop_error_iff.2 ⟨ha, rfl⟩)

end Sys2Proof.Proofs

/-! PROOFS. The results and flags of MOV, LOAD, STORE and the ALU instructions, and the jumps. -/

namespace Sys2Proof.Machine

open Sys2Proof.Claims

/-! ## Instructions that use the value of an operand -/

theorem setReg_of_regs_eq {s u : State} (h : u.regs = s.regs) (rd : Reg) (v : Word) :
    u.setReg rd v = { u with regs := s.regs.set rd v } := by
  rw [State.setReg, h]

/-- An instruction with a readable operand computes with the operand's value. -/
theorem finishWith_of_readable {o : Operand} {s : State} (k : Word → State → State) (ho : OperandReadable o s) :
    finishWith (valueOperand o s) k = .next (k (operandValue o s) (afterOperand o s)) := by
  rw [valueOperand_of_readable ho]
  rfl

/-- An instruction that writes a result and flags of its readable operand. -/
theorem finishWith_setReg_setFlags {o : Operand} {s : State} (rd : Reg) {r : Word → Word} {f : Word → Flags} {r' : Word}
    {f' : Flags} (ho : OperandReadable o s) (hr : r (operandValue o s) = r') (hf : f (operandValue o s) = f') :
    finishWith (valueOperand o s) (fun b t => (t.setReg rd (r b)).setFlags (f b)) =
      .next { afterOperand o s with regs := s.regs.set rd r', flags := f' } := by
  rw [finishWith_of_readable _ ho, setReg_of_regs_eq (afterOperand_sameCore o s).regs, hr, hf]
  rfl

/-! ## Flags of a result -/

theorem zeroFlag_eq (r : Word) : zeroFlag r = decide (r.toNat = 0) := by
  rw [zeroFlag, beq_eq_decide]
  exact decide_eq_decide.2 BitVec.toNat_inj.symm

theorem negativeFlag_eq (r : Word) : negativeFlag r = r.msb := (BitVec.msb_eq_getLsbD_last r).symm

/-- V of ADD: operands of one sign give the other. -/
theorem addOverflow_eq_msb (a b : Word) : addOverflow a b = decide (a.msb = b.msb ∧ (a + b).msb ≠ a.msb) := by
  have sign : ∀ x y z : Bool, (x == y && z != x) = decide (x = y ∧ z ≠ x) := by decide
  simp only [addOverflow, sign, BitVec.msb_eq_getLsbD_last]

/-- V of SUB: operands of different signs give a result whose sign differs from the first. -/
theorem subOverflow_eq_msb (a b : Word) : subOverflow a b = decide (a.msb ≠ b.msb ∧ (a - b).msb ≠ a.msb) := by
  have sign : ∀ x y z : Bool, (x != y && z != x) = decide (x ≠ y ∧ z ≠ x) := by decide
  simp only [subOverflow, sign, BitVec.msb_eq_getLsbD_last]

theorem addFlags_eq (a b : Word) :
    addFlags a b =
      { z := decide ((a + b).toNat = 0), n := (a + b).msb, c := decide (65535 < a.toNat + b.toNat),
        v := decide (a.msb = b.msb ∧ (a + b).msb ≠ a.msb) } := by
  rw [addFlags, zeroFlag_eq, negativeFlag_eq, addOverflow_eq_msb]
  rfl

theorem subFlags_eq (a b : Word) :
    subFlags a b =
      { z := decide ((a - b).toNat = 0), n := (a - b).msb, c := decide (b.toNat ≤ a.toNat),
        v := decide (a.msb ≠ b.msb ∧ (a - b).msb ≠ a.msb) } := by
  rw [subFlags, zeroFlag_eq, negativeFlag_eq, subOverflow_eq_msb]
  rfl

theorem logicFlags_eq (r : Word) (old : Flags) :
    logicFlags r old = { z := decide (r.toNat = 0), n := r.msb, c := old.c, v := false } := by
  rw [logicFlags, zeroFlag_eq, negativeFlag_eq]

/-- V of ADD says that the exact signed sum does not fit in 16 bits (42_alu.md rule R153). -/
theorem addOverflow_eq_range (a b : Word) :
    addOverflow a b = decide (a.toInt + b.toInt < -32768 ∨ 32767 < a.toInt + b.toInt) := by
  have h : addOverflow a b = a.saddOverflow b := by
    rw [addOverflow_eq_msb, BitVec.saddOverflow_eq]
    cases a.msb <;> cases b.msb <;> cases (a + b).msb <;> rfl
  rw [h, BitVec.saddOverflow, ← Bool.decide_or]
  exact decide_eq_decide.2 (by omega)

/-- V of SUB and CMP says that the exact signed difference does not fit in 16 bits (42_alu.md rule R153). -/
theorem subOverflow_eq_range (a b : Word) :
    subOverflow a b = decide (a.toInt - b.toInt < -32768 ∨ 32767 < a.toInt - b.toInt) := by
  have h : subOverflow a b = a.ssubOverflow b := by
    rw [subOverflow_eq_msb, BitVec.ssubOverflow_eq]
    cases a.msb <;> cases b.msb <;> cases (a - b).msb <;> rfl
  rw [h, BitVec.ssubOverflow, ← Bool.decide_or]
  exact decide_eq_decide.2 (by omega)

/-! ## A result as a number -/

theorem eq_sub_of_toNat {a b r : Word} (h : (r.toNat : Int) = ((a.toNat : Int) - b.toNat) % 65536) : r = a - b := by
  apply BitVec.eq_of_toNat_eq
  rw [BitVec.toNat_sub]
  omega

theorem eq_add_of_toNat {a b r : Word} (h : r.toNat = (a.toNat + b.toNat) % 65536) : r = a + b :=
  BitVec.eq_of_toNat_eq (h.trans (BitVec.toNat_add a b).symm)

theorem eq_shlResult_of_toNat {a r : Word} (h : r.toNat = a.toNat * 2 % 65536) : r = shlResult a := by
  apply BitVec.eq_of_toNat_eq
  rw [h, shlResult, BitVec.toNat_shiftLeft, Nat.shiftLeft_eq]

theorem eq_shrResult_of_toNat {a r : Word} (h : r.toNat = a.toNat / 2) : r = shrResult a := by
  apply BitVec.eq_of_toNat_eq
  rw [h, shrResult, BitVec.toNat_ushiftRight, Nat.shiftRight_eq_div_pow]

theorem shlFlags_eq (a : Word) :
    shlFlags a =
      { z := decide ((shlResult a).toNat = 0), n := (shlResult a).msb, c := decide (32768 ≤ a.toNat), v := false } := by
  have hc : a.getLsbD 15 = decide (32768 ≤ a.toNat) :=
    (BitVec.msb_eq_getLsbD_last a).symm.trans (BitVec.msb_eq_decide a)
  rw [shlFlags, zeroFlag_eq, negativeFlag_eq, hc]

theorem shrFlags_eq (a : Word) :
    shrFlags a =
      { z := decide ((shrResult a).toNat = 0), n := false, c := decide (a.toNat % 2 = 1), v := false } := by
  have hn : (shrResult a).msb = false := by rw [shrResult, BitVec.msb_ushiftRight]; rfl
  have hc : a.getLsbD 0 = decide (a.toNat % 2 = 1) := by rw [BitVec.getLsbD, Nat.testBit_zero]
  rw [shrFlags, zeroFlag_eq, negativeFlag_eq, hn, hc]

/-- LOAD writes Z and N exactly when the argument is true (41_data_movement.md rule R141). -/
theorem loadFlags_eq (updatesZN : Bool) (v : Word) (old : Flags) :
    loadFlags updatesZN v old =
      { old with
        z := if updatesZN = true then decide (v = 0) else old.z
        n := if updatesZN = true then v.msb else old.n } := by
  rw [loadFlags, negativeFlag_eq, zeroFlag, beq_eq_decide]

/-! ## Jumps -/

theorem not_eq_true_iff {b : Bool} {p : Prop} (h : b = true ↔ p) : (!b) = true ↔ ¬ p := by
  rw [← h, Bool.not_eq_true', Bool.not_eq_true]

/-- A jump whose test says `p` is taken when `p` holds (43_jumps.md rule R170). -/
theorem jumpWhen_eq {b : Bool} {p : Prop} [Decidable p] (h : b = true ↔ p) (m : MemOperand) (s : State) :
    jumpWhen b m s = .next (if p then { s with pc := effectiveAddress m s } else s) := by
  simp only [← h]
  rfl

end Sys2Proof.Machine

namespace Sys2Proof.Proofs

open Sys2Proof.Machine Sys2Proof.Claims

/-- Settles O35, by evaluating both instructions. -/
theorem nopAndHaltComplete : Obligations.NopAndHaltComplete := fun _ => ⟨rfl, rfl⟩

/-- Settles O36, by the value of a readable operand. -/
theorem movCopiesItsOperand : Obligations.MovCopiesItsOperand := by
  intro rd o s ho
  rw [exec, execMov, finishWith_of_readable _ ho, setReg_of_regs_eq (afterOperand_sameCore o s).regs]

/-- Settles O37, for each value of LOAD_UPDATES_ZN. -/
theorem loadReadsMemory : Obligations.LoadReadsMemory := by
  rintro rd m s _ ha rfl
  have hload : ∀ updatesZN, loadWith updatesZN rd m s =
      .next (afterLoad updatesZN rd m (wordAt (effectiveAddress m s) s) s) := by
    intro updatesZN
    rw [loadWith, memRead_of_accessible ha, finishWith, setReg_of_regs_eq (afterRead_sameCore _ s).regs, loadFlags_eq]
    rfl
  exact ⟨hload, hload _⟩

/-- Settles O38, by a data write that has a meaning. -/
theorem storeWritesMemory : Obligations.StoreWritesMemory := by
  intro dst rs s ha
  obtain ⟨t, ht, hw⟩ := memWrite_of_accessible (s.reg rs) s ha
  exact ⟨t, by rw [exec, execStore, ht]; rfl, hw⟩

/-- Settles O39, by the sum as a number and the flags of it. -/
theorem addResultAndFlags : Obligations.AddResultAndFlags := by
  rintro rd o s _ _ r ho rfl rfl hr
  obtain rfl := eq_add_of_toNat hr
  exact finishWith_setReg_setFlags rd ho rfl (addFlags_eq _ _)

/-- Settles O40, by the difference as a number and the flags of it. -/
theorem subAndCmpResultAndFlags : Obligations.SubAndCmpResultAndFlags := by
  rintro rd o s _ _ r ho rfl rfl hr
  obtain rfl := eq_sub_of_toNat hr
  refine ⟨finishWith_setReg_setFlags rd ho rfl (subFlags_eq _ _), ?_⟩
  rw [exec, execCmp, finishWith_of_readable _ ho, subFlags_eq]
  rfl

/-- Settles O41, by the value the operand of an instruction that answers has. -/
theorem overflowIsSignedRange : Obligations.OverflowIsSignedRange := by
  rintro rd o _ s t rfl
  refine ⟨fun h => ?_, fun h => ?_⟩
  · obtain ⟨v, u, hv, rfl⟩ := exec_next h
    rw [← valueOperand_value hv]
    exact addOverflow_eq_range _ _
  · rcases h with h | h <;> obtain ⟨v, u, hv, rfl⟩ := exec_next h <;> rw [← valueOperand_value hv] <;>
      exact subOverflow_eq_range _ _

/-- Settles O42: a word is the bitwise result when each of its bits is. -/
theorem logicResultAndFlags : Obligations.LogicResultAndFlags := by
  rintro rd o s _ _ r ho rfl rfl
  refine ⟨fun hr => ?_, fun hr => ?_, fun hr => ?_⟩
  · obtain rfl : r = s.reg rd &&& operandValue o s :=
      BitVec.eq_of_getLsbD_eq fun k hk => (hr k hk).trans BitVec.getLsbD_and.symm
    exact finishWith_setReg_setFlags rd ho rfl (logicFlags_eq _ _)
  · obtain rfl : r = s.reg rd ||| operandValue o s :=
      BitVec.eq_of_getLsbD_eq fun k hk => (hr k hk).trans BitVec.getLsbD_or.symm
    exact finishWith_setReg_setFlags rd ho rfl (logicFlags_eq _ _)
  · obtain rfl : r = s.reg rd ^^^ operandValue o s :=
      BitVec.eq_of_getLsbD_eq fun k hk => (hr k hk).trans BitVec.getLsbD_xor.symm
    exact finishWith_setReg_setFlags rd ho rfl (logicFlags_eq _ _)

/-- Settles O43, by the shifted word as a number and the flags of it. -/
theorem shiftResultAndFlags : Obligations.ShiftResultAndFlags := by
  rintro rd s _ r rfl
  refine ⟨fun hr => ?_, fun hr => ?_⟩
  · obtain rfl := eq_shlResult_of_toNat hr
    rw [← shlFlags_eq]
    rfl
  · obtain rfl := eq_shrResult_of_toNat hr
    rw [← shrFlags_eq]
    rfl

/-- Settles O46, by evaluating the jump. -/
theorem jumpGoesToTheEffectiveAddress : Obligations.JumpGoesToTheEffectiveAddress := fun _ _ => rfl

/-- Settles O47: each conditional jump is taken on its flag. -/
theorem conditionalJumpsTestTheirFlag : Obligations.ConditionalJumpsTestTheirFlag := by
  intro m s
  have hz : (!s.flags.z) = true ↔ s.flags.z = false := iff_of_eq (Bool.not_eq_true' _)
  have hc : (!s.flags.c) = true ↔ s.flags.c = false := iff_of_eq (Bool.not_eq_true' _)
  exact ⟨jumpWhen_eq Iff.rfl m s, jumpWhen_eq hz m s, jumpWhen_eq Iff.rfl m s, jumpWhen_eq hc m s,
    jumpWhen_eq Iff.rfl m s⟩

/-- Settles O45, by what the flags of a CMP say and the flag each jump tests. -/
theorem compareThenBranch : Obligations.CompareThenBranch := by
  rintro rd o m s t _ _ h rfl rfl
  obtain ⟨b, u, hb, rfl⟩ := exec_next h
  rw [← valueOperand_value hb]
  have hz : zeroFlag (s.reg rd - b) = true ↔ s.reg rd = b := beq_iff_eq.trans sub_eq_zero
  have hc : subCarry (s.reg rd) b = true ↔ b.toNat ≤ (s.reg rd).toNat := decide_eq_true_iff
  have hn : negativeFlag (s.reg rd - b) = true ↔ (s.reg rd - b).msb = true := by rw [negativeFlag_eq]
  exact ⟨jumpWhen_eq hz m _, jumpWhen_eq (not_eq_true_iff hz) m _, jumpWhen_eq hc m _,
    jumpWhen_eq ((not_eq_true_iff hc).trans Nat.not_le) m _, jumpWhen_eq hn m _⟩

end Sys2Proof.Proofs

/-! PROOFS. The stack instructions and the port instructions. -/

namespace Sys2Proof.Machine

open Sys2Proof.Claims

/-! ## A push to plain memory and the pop that follows it -/

/-- The state after a push of `v` to plain memory. -/
def afterPush (v : Word) (s : State) : State := (s.setMem (s.mem.writeWord (s.sp - 2) v)).setSp (s.sp - 2)

theorem push_of_inPlain (v : Word) (s : State) (ha : InPlain (s.sp - 2)) : push v s = .ok (afterPush v s) := by
  simp only [push, pushAddress, memWrite_of_inPlain v s ha, afterPush]

/-- Where SP and memory are as a push left them, a pop delivers the pushed word and restores SP. -/
theorem pop_of_pushed {v : Word} {s t : State} (ha : InPlain (s.sp - 2)) (hsp : t.sp = s.sp - 2)
    (hm : t.mem = s.mem.writeWord (s.sp - 2) v) : pop t = .ok (v, t.setSp s.sp) := by
  rw [← hsp] at ha
  have hread : memRead t.sp t = .ok (v, t) := by
    rw [memRead_of_inPlain t ha, hm, hsp, Memory.readWord_writeWord]
  rw [pop, hread, hsp, BitVec.sub_add_cancel]

theorem byte_afterPush (v : Word) (s : State) {x : Word} (hlow : x ≠ s.sp - 2) (hhigh : x ≠ s.sp - 1) :
    (afterPush v s).byte x = s.byte x := by
  have hsucc : s.sp - 2 + 1 = s.sp - 1 := by bv_omega
  exact byte_writeWord_other s v hlow (hsucc.symm ▸ hhigh)

end Sys2Proof.Machine

namespace Sys2Proof.Proofs

open Sys2Proof.Machine Sys2Proof.Claims

/-- Settles O50: the jump follows a push that answers. -/
theorem callPushesTheReturnAddress : Obligations.CallPushesTheReturnAddress := by
  intro m s ha
  obtain ⟨u, hw, hpush⟩ := push_of_accessible s.pc s ha
  refine ⟨u, hw, ?_⟩
  rw [exec, execCall_eq, hpush]
  rfl

/-- Settles O51, by a pop that answers. -/
theorem retPopsThePc : Obligations.RetPopsThePc := by
  intro s ha
  rw [exec, execRet, pop_of_accessible ha]
  rfl

/-- Settles O52, by a push that answers. -/
theorem pushWritesBelowTheStack : Obligations.PushWritesBelowTheStack := by
  intro rs s ha
  obtain ⟨u, hw, hpush⟩ := push_of_accessible (s.reg rs) s ha
  refine ⟨u, hw, ?_⟩
  rw [exec, execPush, hpush]
  rfl

/-- Settles O53, by a pop that answers. -/
theorem popReadsTheTopOfTheStack : Obligations.PopReadsTheTopOfTheStack := by
  intro rd s ha
  have hregs : ((afterRead s.sp s).setSp (s.sp + 2)).regs = s.regs := (afterRead_sameCore s.sp s).regs
  rw [exec, execPop, pop_of_accessible ha, finishWith, setReg_of_regs_eq hregs]
  rfl

/-- Settles O54: the pop answers the pushed word. -/
theorem popAfterPushRestores : Obligations.PopAfterPushRestores := by
  intro rs rd s ha
  have hpop : pop (afterPush (s.reg rs) s) = .ok (s.reg rs, (afterPush (s.reg rs) s).setSp s.sp) :=
    pop_of_pushed ha rfl rfl
  refine ⟨afterPush (s.reg rs) s, ((afterPush (s.reg rs) s).setSp s.sp).setReg rd (s.reg rs), ?_, ?_, ?_, rfl, ?_, rfl,
    rfl, rfl, fun x => byte_afterPush _ s⟩
  · rw [exec, execPush, push_of_inPlain _ s ha]
    rfl
  · rw [exec, execPop, hpop]
    rfl
  · exact State.setReg_reg_same _ rd _
  · exact fun q hq => State.setReg_reg_other _ _ hq

/-- Settles O55: the pop of RET answers the pushed pc, whatever the pc is by then. -/
theorem returnAfterCallComesBack : Obligations.ReturnAfterCallComesBack := by
  intro m s ha
  refine ⟨(afterPush s.pc s).setPc (effectiveAddress m s), ((afterPush s.pc s).setSp s.sp).setPc s.pc, ?_, rfl,
    fun pc' => ?_, rfl, fun x => byte_afterPush _ s⟩
  · rw [exec, execCall_eq, push_of_inPlain _ s ha]
    rfl
  · rw [exec, execRet, pop_of_pushed (v := s.pc) ha rfl rfl]
    rfl

/-- Settles O56, by a read of the window. -/
theorem inReadsThePort : Obligations.InReadsThePort := by
  rintro rd port s _ _ rfl hp rfl
  rw [exec, execInPort_of_inRange hp, memRead_of_inWindow s (inWindow_portAddress hp)]
  rfl

/-- Settles O57, by a write to the window. -/
theorem outWritesThePort : Obligations.OutWritesThePort := by
  rintro rs port s _ rfl hp
  rw [exec, execOutPort_of_inRange hp, memWrite_of_inWindow _ s (inWindow_portAddress hp)]
  rfl

/-- Settles O59: both sides make the same access, and LOAD at the default writes no flag. -/
theorem portIsTheWindowRegister : Obligations.PortIsTheWindowRegister := by
  intro r port m s hp ha
  replace ha : effectiveAddress m s = portAddress (portNumber port s) := ha
  constructor
  · rw [loadWith, ha, memRead_of_inWindow s (inWindow_portAddress hp)]
    rw [exec, execInPort_of_inRange hp, memRead_of_inWindow s (inWindow_portAddress hp)]
    rfl
  · refine (execOutPort_of_inRange hp).trans ?_
    rw [exec, execStore, ha]

end Sys2Proof.Proofs
